-- ==== Sys2Proof/Word.lean ====
section
/-! DEFINITION. The two word types of the block (00_scope.md R10, R13): bytes and 16-bit addresses. -/

namespace Sys2Proof

/-- `u8` of R13: the width of A, X, Y, S, P and of every byte of memory (R10). -/
abbrev Byte := BitVec 8

/-- `u16` of R13: the width of PC and of every address (R10). -/
abbrev Word := BitVec 16

end Sys2Proof
end

