-- ==== Sys2Proof/Config.lean ====
section
/-! DEFINITION. The implementation parameters that the spec leaves to the model (00_scope.md R11), as one record.
The operations that depend on a parameter take the record as an argument. The values that `step` runs
with stand in Sys2Proof/Machine/Parameters.lean (a file a later repair may mend). -/

namespace Sys2Proof

/-- `P_ASL_Z` (R11, R109): where ASL takes Z from. -/
inductive AslZ where
  /-- Z from the 8-bit stored result (the spec's default, D7). -/
  | result8
  /-- Z from the 9-bit intermediate. -/
  | intermediate9
  deriving DecidableEq, Repr

/-- The five parameters of R11. -/
structure Params where
  /-- `P_UNDOC_LEN`: how many operand bytes an undocumented opcode consumes, 0, 1 or 2 (R64). -/
  undocLen : Byte → Fin 3
  /-- `P_ASL_Z` (R109). -/
  aslZ : AslZ
  /-- `P_RESET_PC`: PC after `reset()` (R194). -/
  resetPc : Word
  /-- `P_INIT_MEM`: the memory contents at power-up, as the cells that are not 0x00 (R196). -/
  initMem : List (Nat × Byte)
  /-- `P_BULK_INTERCEPT`: whether bulk requests divert window bytes to the sound chip (R41). -/
  bulkIntercept : Bool

end Sys2Proof
end

