-- ==== Sys2Proof/Syntax.lean ====
section
/-! DEFINITION. The syntax: the thirteen addressing modes (30_encoding.md R56) and the 57 instruction kinds (R60).
A decoded instruction is the pair (kind, mode) that DECODE gives for an opcode byte (R29, R55, R71): a kind whose
rows of the opcode table differ in their mode carries the mode, a kind with one mode carries nothing, and the
placeholder carries its opcode byte, which fixes its operand count (R64). Operand bytes are not part of the
pair: the instruction's own rule fetches them (R70, R74), after the pushes in the case of JSR (R137); log 9. -/

namespace Sys2Proof

/-- The 13 addressing modes, in the order of R56. -/
inductive Mode where
  | imp | imm | abs | absx | absy | zp | zpx | zpy | ind | indx | indy | acc | rel
  deriving DecidableEq, Repr

/-- The 57 kinds of R60, in its order, with the mode where the opcode table has more than one for the kind. -/
inductive Instr where
  -- Arithmetic (41_arith_logic.md)
  | adc (m : Mode)
  | sbc (m : Mode)
  -- Logical (41_arith_logic.md)
  | and (m : Mode)
  | ora (m : Mode)
  | eor (m : Mode)
  | bit (m : Mode)
  -- Shifts and rotates (42_shift_rotate.md)
  | asl (m : Mode)
  | lsr (m : Mode)
  | rol (m : Mode)
  | ror (m : Mode)
  -- Compare (43_compare_incdec.md)
  | cmp (m : Mode)
  | cpx (m : Mode)
  | cpy (m : Mode)
  -- Increment and decrement (43_compare_incdec.md)
  | inc (m : Mode)
  | dec (m : Mode)
  | inx
  | iny
  | dex
  | dey
  -- Branches, mode rel (44_control.md)
  | bcc
  | bcs
  | bne
  | beq
  | bpl
  | bmi
  | bvc
  | bvs
  -- Jumps: JMP in mode abs or ind, JSR in mode abs (44_control.md)
  | jmp (m : Mode)
  | jsr
  -- Returns (44_control.md)
  | rts
  | rti
  -- Stack (45_stack_flag_transfer.md)
  | pha
  | php
  | pla
  | plp
  | tsx
  | txs
  -- Flag instructions (45_stack_flag_transfer.md)
  | clc
  | sec
  | cld
  | sed
  | cli
  | sei
  | clv
  -- Transfers (45_stack_flag_transfer.md)
  | tax
  | tay
  | txa
  | tya
  -- BRK, NOP and the placeholder of the undocumented opcode `op` (46_brk_nop_undoc.md)
  | brk
  | nop
  | xxx (op : Byte)
  -- Loads and stores (47_load_store.md)
  | lda (m : Mode)
  | ldx (m : Mode)
  | ldy (m : Mode)
  | sta (m : Mode)
  | stx (m : Mode)
  | sty (m : Mode)
  deriving DecidableEq, Repr

end Sys2Proof
end

