-- ==== Sys2Proof/WellFormed.lean ====
section
/-! DEFINITION. Which instructions exist: the (kind, mode) pairs of the "Encodings" lines of files 41 to 47, and
the 105 undocumented opcodes of 30_encoding.md R64. -/

namespace Sys2Proof

/-- The undocumented opcodes whose standard mode has no operand byte (R64, first row). -/
def undocumentedNone : List Byte :=
  [0x02, 0x12, 0x1A, 0x22, 0x32, 0x3A, 0x42, 0x52, 0x5A] ++
  [0x62, 0x72, 0x7A, 0x92, 0xB2, 0xD2, 0xDA, 0xF2, 0xFA]

/-- The undocumented opcodes whose standard mode has one operand byte (R64, second row). -/
def undocumentedOne : List Byte :=
  [0x03, 0x04, 0x07, 0x0B, 0x13, 0x14, 0x17, 0x23, 0x27, 0x2B, 0x33, 0x34, 0x37, 0x43] ++
  [0x44, 0x47, 0x4B, 0x53, 0x54, 0x57, 0x63, 0x64, 0x67, 0x6B, 0x73, 0x74, 0x77, 0x80] ++
  [0x82, 0x83, 0x87, 0x89, 0x8B, 0x93, 0x97, 0xA3, 0xA7, 0xAB, 0xB3, 0xB7, 0xC2, 0xC3] ++
  [0xC7, 0xCB, 0xD3, 0xD4, 0xD7, 0xE2, 0xE3, 0xE7, 0xEB, 0xF3, 0xF4, 0xF7]

/-- The undocumented opcodes whose standard mode has two operand bytes (R64, third row). -/
def undocumentedTwo : List Byte :=
  [0x0C, 0x0F, 0x1B, 0x1C, 0x1F, 0x2F, 0x3B, 0x3C, 0x3F, 0x4F, 0x5B, 0x5C] ++
  [0x5F, 0x6F, 0x7B, 0x7C, 0x7F, 0x8F, 0x9B, 0x9C, 0x9E, 0x9F, 0xAF, 0xBB] ++
  [0xBF, 0xCF, 0xDB, 0xDC, 0xDF, 0xEF, 0xFB, 0xFC, 0xFF]

/-- The opcode is one of the 105 undocumented ones (R62, R63). -/
def undocumented (op : Byte) : Bool :=
  undocumentedNone.contains op || undocumentedOne.contains op || undocumentedTwo.contains op

/-- The eight modes of ADC, SBC, AND, ORA, EOR, CMP and LDA (R101 to R105, R115, R165). -/
def Mode.isAccumulatorSource : Mode → Bool
  | .imm | .zp | .zpx | .abs | .absx | .absy | .indx | .indy => true
  | .imp | .zpy | .ind | .acc | .rel => false

/-- The five modes of ASL, LSR, ROL and ROR (R109 to R112). -/
def Mode.isShiftTarget : Mode → Bool
  | .acc | .zp | .zpx | .abs | .absx => true
  | .imp | .imm | .absy | .zpy | .ind | .indx | .indy | .rel => false

/-- The (kind, mode) pair stands in the opcode map (R61). -/
def Instr.wf : Instr → Bool
  | .adc m | .sbc m | .and m | .ora m | .eor m | .cmp m | .lda m => m.isAccumulatorSource
  | .bit m => m == .zp || m == .abs
  | .asl m | .lsr m | .rol m | .ror m => m.isShiftTarget
  | .cpx m | .cpy m => m == .imm || m == .zp || m == .abs
  | .inc m | .dec m => m == .zp || m == .zpx || m == .abs || m == .absx
  | .jmp m => m == .abs || m == .ind
  | .ldx m => m == .imm || m == .zp || m == .zpy || m == .abs || m == .absy
  | .ldy m => m == .imm || m == .zp || m == .zpx || m == .abs || m == .absx
  | .sta m => m.isAccumulatorSource && m != .imm
  | .stx m => m == .zp || m == .zpy || m == .abs
  | .sty m => m == .zp || m == .zpx || m == .abs
  | .xxx op => undocumented op
  | .inx | .iny | .dex | .dey | .bcc | .bcs | .bne | .beq | .bpl | .bmi | .bvc | .bvs | .jsr | .rts | .rti
  | .pha | .php | .pla | .plp | .tsx | .txs | .clc | .sec | .cld | .sed | .cli | .sei | .clv
  | .tax | .tay | .txa | .tya | .brk | .nop => true

end Sys2Proof
end

