-- ==== Sys2Proof/Machine/Parameters.lean ====
section
/-! DEFINITION. The values `step` runs with for the five parameters of 00_scope.md R11: the defaults of
92_eei_decisions.md D3, D7, D9, D11 and D12 (log 1 to 5). -/

namespace Sys2Proof.Machine

/-- DESIGN CHOICE (log 1), the default of D3: the operand count of the opcode's standard NMOS mode (R64). -/
def defaultUndocLen (op : Byte) : Fin 3 :=
  if undocumentedTwo.contains op then 2 else if undocumentedOne.contains op then 1 else 0

/-- The parameters of the modelled machine. -/
def params : Params where
  undocLen := defaultUndocLen
  aslZ := .result8          -- DESIGN CHOICE (log 2), the default of D7
  resetPc := 0x0000         -- DESIGN CHOICE (log 3), the default of D9
  initMem := []             -- DESIGN CHOICE (log 4), the default of D11: every byte 0x00
  bulkIntercept := false    -- DESIGN CHOICE (log 5), the default of D12

end Sys2Proof.Machine
end

