-- ==== Sys2Proof/Decode.lean ====
section
/-! DEFINITION. The instruction decoder: DECODE (10_state.md R29, contents 30_encoding.md R61), the lengths of
R55 to R57, the decoder of a byte sequence, and after it the encoder, written from the "Encodings" lines of the
instruction rules in files 41 to 47 (not from the grid of R61), so that the two can be held against each other. -/

namespace Sys2Proof

/-- Row 0x of R61. -/
def decodeRow0 : List Instr :=
  [.brk, .ora .indx, .xxx 0x02, .xxx 0x03, .xxx 0x04, .ora .zp, .asl .zp, .xxx 0x07,
   .php, .ora .imm, .asl .acc, .xxx 0x0B, .xxx 0x0C, .ora .abs, .asl .abs, .xxx 0x0F]

/-- Row 1x of R61. -/
def decodeRow1 : List Instr :=
  [.bpl, .ora .indy, .xxx 0x12, .xxx 0x13, .xxx 0x14, .ora .zpx, .asl .zpx, .xxx 0x17,
   .clc, .ora .absy, .xxx 0x1A, .xxx 0x1B, .xxx 0x1C, .ora .absx, .asl .absx, .xxx 0x1F]

/-- Row 2x of R61. -/
def decodeRow2 : List Instr :=
  [.jsr, .and .indx, .xxx 0x22, .xxx 0x23, .bit .zp, .and .zp, .rol .zp, .xxx 0x27,
   .plp, .and .imm, .rol .acc, .xxx 0x2B, .bit .abs, .and .abs, .rol .abs, .xxx 0x2F]

/-- Row 3x of R61. -/
def decodeRow3 : List Instr :=
  [.bmi, .and .indy, .xxx 0x32, .xxx 0x33, .xxx 0x34, .and .zpx, .rol .zpx, .xxx 0x37,
   .sec, .and .absy, .xxx 0x3A, .xxx 0x3B, .xxx 0x3C, .and .absx, .rol .absx, .xxx 0x3F]

/-- Row 4x of R61. -/
def decodeRow4 : List Instr :=
  [.rti, .eor .indx, .xxx 0x42, .xxx 0x43, .xxx 0x44, .eor .zp, .lsr .zp, .xxx 0x47,
   .pha, .eor .imm, .lsr .acc, .xxx 0x4B, .jmp .abs, .eor .abs, .lsr .abs, .xxx 0x4F]

/-- Row 5x of R61. -/
def decodeRow5 : List Instr :=
  [.bvc, .eor .indy, .xxx 0x52, .xxx 0x53, .xxx 0x54, .eor .zpx, .lsr .zpx, .xxx 0x57,
   .cli, .eor .absy, .xxx 0x5A, .xxx 0x5B, .xxx 0x5C, .eor .absx, .lsr .absx, .xxx 0x5F]

/-- Row 6x of R61. -/
def decodeRow6 : List Instr :=
  [.rts, .adc .indx, .xxx 0x62, .xxx 0x63, .xxx 0x64, .adc .zp, .ror .zp, .xxx 0x67,
   .pla, .adc .imm, .ror .acc, .xxx 0x6B, .jmp .ind, .adc .abs, .ror .abs, .xxx 0x6F]

/-- Row 7x of R61. -/
def decodeRow7 : List Instr :=
  [.bvs, .adc .indy, .xxx 0x72, .xxx 0x73, .xxx 0x74, .adc .zpx, .ror .zpx, .xxx 0x77,
   .sei, .adc .absy, .xxx 0x7A, .xxx 0x7B, .xxx 0x7C, .adc .absx, .ror .absx, .xxx 0x7F]

/-- Row 8x of R61. -/
def decodeRow8 : List Instr :=
  [.xxx 0x80, .sta .indx, .xxx 0x82, .xxx 0x83, .sty .zp, .sta .zp, .stx .zp, .xxx 0x87,
   .dey, .xxx 0x89, .txa, .xxx 0x8B, .sty .abs, .sta .abs, .stx .abs, .xxx 0x8F]

/-- Row 9x of R61. -/
def decodeRow9 : List Instr :=
  [.bcc, .sta .indy, .xxx 0x92, .xxx 0x93, .sty .zpx, .sta .zpx, .stx .zpy, .xxx 0x97,
   .tya, .sta .absy, .txs, .xxx 0x9B, .xxx 0x9C, .sta .absx, .xxx 0x9E, .xxx 0x9F]

/-- Row Ax of R61. -/
def decodeRowA : List Instr :=
  [.ldy .imm, .lda .indx, .ldx .imm, .xxx 0xA3, .ldy .zp, .lda .zp, .ldx .zp, .xxx 0xA7,
   .tay, .lda .imm, .tax, .xxx 0xAB, .ldy .abs, .lda .abs, .ldx .abs, .xxx 0xAF]

/-- Row Bx of R61. -/
def decodeRowB : List Instr :=
  [.bcs, .lda .indy, .xxx 0xB2, .xxx 0xB3, .ldy .zpx, .lda .zpx, .ldx .zpy, .xxx 0xB7,
   .clv, .lda .absy, .tsx, .xxx 0xBB, .ldy .absx, .lda .absx, .ldx .absy, .xxx 0xBF]

/-- Row Cx of R61. -/
def decodeRowC : List Instr :=
  [.cpy .imm, .cmp .indx, .xxx 0xC2, .xxx 0xC3, .cpy .zp, .cmp .zp, .dec .zp, .xxx 0xC7,
   .iny, .cmp .imm, .dex, .xxx 0xCB, .cpy .abs, .cmp .abs, .dec .abs, .xxx 0xCF]

/-- Row Dx of R61. -/
def decodeRowD : List Instr :=
  [.bne, .cmp .indy, .xxx 0xD2, .xxx 0xD3, .xxx 0xD4, .cmp .zpx, .dec .zpx, .xxx 0xD7,
   .cld, .cmp .absy, .xxx 0xDA, .xxx 0xDB, .xxx 0xDC, .cmp .absx, .dec .absx, .xxx 0xDF]

/-- Row Ex of R61. -/
def decodeRowE : List Instr :=
  [.cpx .imm, .sbc .indx, .xxx 0xE2, .xxx 0xE3, .cpx .zp, .sbc .zp, .inc .zp, .xxx 0xE7,
   .inx, .sbc .imm, .nop, .xxx 0xEB, .cpx .abs, .sbc .abs, .inc .abs, .xxx 0xEF]

/-- Row Fx of R61. -/
def decodeRowF : List Instr :=
  [.beq, .sbc .indy, .xxx 0xF2, .xxx 0xF3, .xxx 0xF4, .sbc .zpx, .inc .zpx, .xxx 0xF7,
   .sed, .sbc .absy, .xxx 0xFA, .xxx 0xFB, .xxx 0xFC, .sbc .absx, .inc .absx, .xxx 0xFF]

/-- The grid of R61: sixteen rows of sixteen cells. -/
def decodeGrid : List (List Instr) :=
  [decodeRow0, decodeRow1, decodeRow2, decodeRow3, decodeRow4, decodeRow5, decodeRow6, decodeRow7,
   decodeRow8, decodeRow9, decodeRowA, decodeRowB, decodeRowC, decodeRowD, decodeRowE, decodeRowF]

/-- `DECODE[op]` (R29) for `op = 0xHL`: the cell at row H, column L (R61). Total: every byte has a cell (R63), so the
defaults are never used. -/
def decode (op : Byte) : Instr :=
  (decodeGrid.getD (op.toNat / 16) []).getD (op.toNat % 16) (.xxx op)

/-- The operand bytes each mode consumes (R56). -/
def Mode.operandBytes : Mode → Nat
  | .imp | .acc => 0
  | .imm | .zp | .zpx | .zpy | .indx | .indy | .rel => 1
  | .abs | .absx | .absy | .ind => 2

/-- The mode of an instruction; the placeholder has none of its own (R61, R64). -/
def Instr.mode : Instr → Option Mode
  | .adc m | .sbc m | .and m | .ora m | .eor m | .bit m | .asl m | .lsr m | .rol m | .ror m
  | .cmp m | .cpx m | .cpy m | .inc m | .dec m | .jmp m | .lda m | .ldx m | .ldy m | .sta m | .stx m | .sty m => some m
  | .bcc | .bcs | .bne | .beq | .bpl | .bmi | .bvc | .bvs => some .rel
  | .jsr => some .abs
  | .inx | .iny | .dex | .dey | .rts | .rti | .pha | .php | .pla | .plp | .tsx | .txs
  | .clc | .sec | .cld | .sed | .cli | .sei | .clv | .tax | .tay | .txa | .tya | .brk | .nop => some .imp
  | .xxx _ => none

/-- The operand bytes of an instruction (R57): those of its mode, `P_UNDOC_LEN` for a placeholder (R64). -/
def Instr.operandBytes (p : Params) : Instr → Nat
  | .xxx op => (p.undocLen op).val
  | i => (i.mode.getD .imp).operandBytes

/-- The length of an instruction in bytes (R55, R57). -/
def Instr.length (p : Params) (i : Instr) : Nat :=
  1 + i.operandBytes p

/-- Why a byte sequence holds no whole instruction; no opcode byte is itself rejected (R63). -/
inductive DecodeError where
  /-- The sequence is empty. -/
  | noOpcode
  /-- The sequence ends before the instruction's last operand byte. -/
  | operandMissing
  deriving DecidableEq, Repr

/-- One instruction read from a byte sequence: its (kind, mode) pair, its operand bytes in ascending address
order (R55), and the bytes after it. -/
structure Decoded where
  instr : Instr
  operands : List Byte
  rest : List Byte
  deriving DecidableEq, Repr

/-- Reads the first instruction of a byte sequence (R55, R57). -/
def decodeBytes (p : Params) : List Byte → Except DecodeError Decoded
  | [] => .error .noOpcode
  | op :: tail =>
    if tail.length < (decode op).operandBytes p then .error .operandMissing
    else .ok ⟨decode op, tail.take ((decode op).operandBytes p), tail.drop ((decode op).operandBytes p)⟩

/-- Up to three bytes of an instruction given as a number whose bit 0 is the least significant bit of the first
byte; bits from `nbits` up count as 0. -/
def wordBytes (nbits w : Nat) : List Byte :=
  let v := w % 2 ^ nbits
  [BitVec.ofNat 8 v, BitVec.ofNat 8 (v / 256), BitVec.ofNat 8 (v / 65536)]

/-- The instruction the decoder reads from a row of spec/opcode_table.json. -/
def decodeTableWord (nbits w : Nat) : Option Instr :=
  match decodeBytes Machine.params (wordBytes nbits w) with
  | .ok d => some d.instr
  | .error _ => none

/-! ### The encoder -/

/-- The opcode byte of an instruction (the "Encodings" lines of R101 to R170); none for a pair that has none. -/
def opcodeOf : Instr → Option Byte
  | .adc m => List.lookup m [(.imm, 0x69), (.zp, 0x65), (.zpx, 0x75), (.abs, 0x6D), (.absx, 0x7D), (.absy, 0x79), (.indx, 0x61), (.indy, 0x71)]
  | .sbc m => List.lookup m [(.imm, 0xE9), (.zp, 0xE5), (.zpx, 0xF5), (.abs, 0xED), (.absx, 0xFD), (.absy, 0xF9), (.indx, 0xE1), (.indy, 0xF1)]
  | .and m => List.lookup m [(.imm, 0x29), (.zp, 0x25), (.zpx, 0x35), (.abs, 0x2D), (.absx, 0x3D), (.absy, 0x39), (.indx, 0x21), (.indy, 0x31)]
  | .ora m => List.lookup m [(.imm, 0x09), (.zp, 0x05), (.zpx, 0x15), (.abs, 0x0D), (.absx, 0x1D), (.absy, 0x19), (.indx, 0x01), (.indy, 0x11)]
  | .eor m => List.lookup m [(.imm, 0x49), (.zp, 0x45), (.zpx, 0x55), (.abs, 0x4D), (.absx, 0x5D), (.absy, 0x59), (.indx, 0x41), (.indy, 0x51)]
  | .bit m => List.lookup m [(.zp, 0x24), (.abs, 0x2C)]
  | .asl m => List.lookup m [(.acc, 0x0A), (.zp, 0x06), (.zpx, 0x16), (.abs, 0x0E), (.absx, 0x1E)]
  | .lsr m => List.lookup m [(.acc, 0x4A), (.zp, 0x46), (.zpx, 0x56), (.abs, 0x4E), (.absx, 0x5E)]
  | .rol m => List.lookup m [(.acc, 0x2A), (.zp, 0x26), (.zpx, 0x36), (.abs, 0x2E), (.absx, 0x3E)]
  | .ror m => List.lookup m [(.acc, 0x6A), (.zp, 0x66), (.zpx, 0x76), (.abs, 0x6E), (.absx, 0x7E)]
  | .cmp m => List.lookup m [(.imm, 0xC9), (.zp, 0xC5), (.zpx, 0xD5), (.abs, 0xCD), (.absx, 0xDD), (.absy, 0xD9), (.indx, 0xC1), (.indy, 0xD1)]
  | .cpx m => List.lookup m [(.imm, 0xE0), (.zp, 0xE4), (.abs, 0xEC)]
  | .cpy m => List.lookup m [(.imm, 0xC0), (.zp, 0xC4), (.abs, 0xCC)]
  | .inc m => List.lookup m [(.zp, 0xE6), (.zpx, 0xF6), (.abs, 0xEE), (.absx, 0xFE)]
  | .dec m => List.lookup m [(.zp, 0xC6), (.zpx, 0xD6), (.abs, 0xCE), (.absx, 0xDE)]
  | .inx => some 0xE8
  | .iny => some 0xC8
  | .dex => some 0xCA
  | .dey => some 0x88
  | .bcc => some 0x90
  | .bcs => some 0xB0
  | .bne => some 0xD0
  | .beq => some 0xF0
  | .bpl => some 0x10
  | .bmi => some 0x30
  | .bvc => some 0x50
  | .bvs => some 0x70
  | .jmp m => List.lookup m [(.abs, 0x4C), (.ind, 0x6C)]
  | .jsr => some 0x20
  | .rts => some 0x60
  | .rti => some 0x40
  | .pha => some 0x48
  | .php => some 0x08
  | .pla => some 0x68
  | .plp => some 0x28
  | .tsx => some 0xBA
  | .txs => some 0x9A
  | .clc => some 0x18
  | .sec => some 0x38
  | .cld => some 0xD8
  | .sed => some 0xF8
  | .cli => some 0x58
  | .sei => some 0x78
  | .clv => some 0xB8
  | .tax => some 0xAA
  | .tay => some 0xA8
  | .txa => some 0x8A
  | .tya => some 0x98
  | .brk => some 0x00
  | .nop => some 0xEA
  | .xxx op => if undocumented op then some op else none
  | .lda m => List.lookup m [(.imm, 0xA9), (.zp, 0xA5), (.zpx, 0xB5), (.abs, 0xAD), (.absx, 0xBD), (.absy, 0xB9), (.indx, 0xA1), (.indy, 0xB1)]
  | .ldx m => List.lookup m [(.imm, 0xA2), (.zp, 0xA6), (.zpy, 0xB6), (.abs, 0xAE), (.absy, 0xBE)]
  | .ldy m => List.lookup m [(.imm, 0xA0), (.zp, 0xA4), (.zpx, 0xB4), (.abs, 0xAC), (.absx, 0xBC)]
  | .sta m => List.lookup m [(.zp, 0x85), (.zpx, 0x95), (.abs, 0x8D), (.absx, 0x9D), (.absy, 0x99), (.indx, 0x81), (.indy, 0x91)]
  | .stx m => List.lookup m [(.zp, 0x86), (.zpy, 0x96), (.abs, 0x8E)]
  | .sty m => List.lookup m [(.zp, 0x84), (.zpx, 0x94), (.abs, 0x8C)]

/-- The bytes of a well-formed instruction with its operand bytes in ascending address order (R55); none for an
instruction outside the opcode map or a wrong number of operand bytes. -/
def encode (p : Params) (i : Instr) (operands : List Byte) : Option (List Byte) :=
  if operands.length = i.operandBytes p then (opcodeOf i).map (· :: operands) else none

end Sys2Proof
end

