-- ==== Sys2Proof/Machine/State.lean ====
section
/-! DEFINITION. The state of the block (10_state.md R19 to R31) as plain data, the reasons a step can stop, the
state after reset (R32), and the field updates. -/

namespace Sys2Proof.Machine

/-- `M` (R28), as the cells that differ from what an unlisted address reads as, by rising address. -/
abbrev Memory := List Host.Cell

/-- One event of the sound-chip port (R30): the 5-bit register index and the byte written. -/
structure SoundEvent where
  index : BitVec 5
  value : Byte
  deriving DecidableEq, Repr

/-- The bits of the status register `P` (R23, R24); `u` is the unnamed bit 5. -/
inductive Flag where
  | n | v | u | b | d | i | z | c
  deriving DecidableEq, Repr

/-- Everything the block holds (R19 to R31). -/
structure State where
  /-- `A`, the accumulator (R19). -/
  a : Byte
  /-- `X`, an index register (R20). -/
  x : Byte
  /-- `Y`, an index register (R20). -/
  y : Byte
  /-- `S`, the stack pointer: the offset in page 0x01 of the next free stack byte (R21). -/
  sp : Byte
  /-- `P`, the status register, all eight bits storage (R23). -/
  p : Byte
  /-- `PC`, the program counter (R22). -/
  pc : Word
  /-- `M`, the backing memory array (R28). -/
  mem : Memory
  /-- `SND`, the sound-chip events in emission order (R30). -/
  snd : List SoundEvent
  deriving DecidableEq, Repr

/-- The faults of the block: there are none. "The block raises no exception" (R171), and "The model has two
refusals and no faults" (R173). No step raises a fault. -/
inductive Fault where
  deriving DecidableEq, Repr

/-- Why the model stops without a meaning (R173). No opcode byte leads to any of these. -/
inductive Refusal where
  /-- Raised by an arm of `exec` that has no meaning yet: safe. -/
  | notModelled (mnemonic : String)
  /-- Raised by a reading instruction given mode `ind` or `rel`, which `fetch_operand` does not list (R87,
  D18): safe, and unreachable under the opcode map. -/
  | fetchOperandMode (m : Mode)
  /-- Raised by a store given mode `imp`, `imm`, `ind`, `acc` or `rel`, which `store_fresh` does not list
  (R93, D18): safe, and unreachable under the opcode map. -/
  | storeFreshMode (m : Mode)
  /-- Raised by JMP given a mode other than `abs` and `ind`, for which R136 has no case (log 13): safe, and
  unreachable under the opcode map. -/
  | jumpMode (m : Mode)
  deriving DecidableEq, Repr

/-- What one step or one instruction answers. -/
abbrev Result := Host.Outcome State Fault Refusal

/-- The machine right after `reset()` at power-up (R32, R194, R196): the registers at the `reset()` values,
`PC` at `P_RESET_PC`, `M` at `P_INIT_MEM`, no event (log 3, 4, 6). -/
def State.reset : State where
  a := 0x00
  x := 0x00
  y := 0x00
  sp := 0xFF
  p := 0x00
  pc := params.resetPc
  mem := params.initMem
  snd := []

def State.setA (s : State) (v : Byte) : State := { s with a := v }
def State.setX (s : State) (v : Byte) : State := { s with x := v }
def State.setY (s : State) (v : Byte) : State := { s with y := v }
def State.setSp (s : State) (v : Byte) : State := { s with sp := v }
def State.setP (s : State) (v : Byte) : State := { s with p := v }
def State.setPc (s : State) (v : Word) : State := { s with pc := v }
def State.setMem (s : State) (v : Memory) : State := { s with mem := v }
def State.setSnd (s : State) (v : List SoundEvent) : State := { s with snd := v }

end Sys2Proof.Machine
end

