-- ==== Sys2Proof/Machine/Ops.lean ====
section
/-! DEFINITION. The named operations over bits, memory, the bus, the stack and the instruction stream
(00_scope.md R12 to R15, 20_memory.md, 40_step_addressing.md R70, R95, R96). There is no operation for taking an
exception: the block raises none and enters no trap (60_exceptions.md R171, R175, R178); the return it has, RTI, is
RTS (R179), and both are `returnFromStack`. -/

namespace Sys2Proof.Machine

/-! ### Bits (R12, R13) -/

/-- `{hi, lo}`, the 16-bit value hi*256 + lo (R12). -/
def pair (hi lo : Byte) : Word := hi ++ lo

/-- `zext_16` (R13). -/
def zext16 (v : Byte) : Word := v.setWidth 16

/-- `sext_16` (R13). -/
def sext16 (v : Byte) : Word := v.signExtend 16

/-- `w[15:8]` (R12). -/
def hiByte (w : Word) : Byte := w.extractLsb' 8 8

/-- `w[7:0]` (R12). -/
def loByte (w : Word) : Byte := w.extractLsb' 0 8

/-! ### The backing array M (R28) -/

/-- What an address that no cell lists reads as: DESIGN CHOICE (log 4), the default of `P_INIT_MEM` (R196, D11). -/
def Memory.unlisted : Byte := 0x00

/-- The canonical form: addresses strictly rising and in the 64 KiB space, no cell equal to an unlisted one. -/
abbrev Memory.wf (m : Memory) : Prop :=
  m.Pairwise (fun c d => c.1 < d.1) ∧ ∀ c ∈ m, c.1 < 65536 ∧ c.2 ≠ Memory.unlisted

/-- `M[a]`: cells lie by rising address, so the search ends at the first cell not below `a`. -/
def Memory.read : Memory → Nat → Byte
  | [], _ => Memory.unlisted
  | (k, v) :: rest, a => if k < a then Memory.read rest a else if k = a then v else Memory.unlisted

/-- `M[a] <- v`, keeping the canonical form. Cells of an address not above `a` that follow the place of `a` are
dropped too: a canonical list has none, and so the read-after-write laws hold of every list. -/
def Memory.write : Memory → Nat → Byte → Memory
  | [], a, v => if v = Memory.unlisted then [] else [(a, v)]
  | (k, w) :: rest, a, v =>
    if k < a then (k, w) :: Memory.write rest a v
    else
      let above := ((k, w) :: rest).dropWhile (fun c => c.1 ≤ a)
      if v = Memory.unlisted then above else (a, v) :: above

/-! ### The bus (20_memory.md) -/

/-- `MemRead(addr, 1)` (R33): the backing byte, also in the window (R37), with no side effect. -/
def State.memRead (s : State) (addr : Word) : Byte := s.mem.read addr.toNat

/-- `M[addr] <- v` without the bus (R14). -/
def State.poke (s : State) (addr : Word) (v : Byte) : State := s.setMem (s.mem.write addr.toNat v)

/-- The sound-register window (R34). -/
def inWindow (addr : Word) : Bool := (addr &&& 0xFC00) == 0xD400

/-- The sound-chip register of a window address: `addr & 0x1F` (R34). -/
def soundIndex (addr : Word) : BitVec 5 := addr.extractLsb' 0 5

/-- `SoundWrite(idx, v)` (R36): one event appended to `SND`, nothing else. -/
def State.soundWrite (s : State) (idx : BitVec 5) (v : Byte) : State := s.setSnd (s.snd ++ [⟨idx, v⟩])

/-- `MemWrite(addr, 1, v)` (R35): an event in the window, a store elsewhere. -/
def State.memWrite (s : State) (addr : Word) (v : Byte) : State :=
  if inWindow addr then s.soundWrite (soundIndex addr) v else s.poke addr v

/-- Bytes placed in `M` at consecutive addresses, without the bus. -/
def State.pokeBytes (s : State) (addr : Word) : List Byte → State
  | [] => s
  | v :: rest => (s.poke addr v).pokeBytes (addr + 1) rest

/-- Bytes sent through `MemWrite` at consecutive ascending addresses. -/
def State.memWriteBytes (s : State) (addr : Word) : List Byte → State
  | [] => s
  | v :: rest => (s.memWrite addr v).memWriteBytes (addr + 1) rest

/-! ### The instruction stream (R70) -/

/-- `Fetch8()` (R70). -/
def fetch8 (s : State) : Byte × State := (s.memRead s.pc, s.setPc (s.pc + 1))

/-- Two `Fetch8()`, low byte first (R43, R58). -/
def fetch16 (s : State) : Word × State :=
  let lo := fetch8 s
  let hi := fetch8 lo.2
  (pair hi.1 lo.1, hi.2)

/-! ### The stack (R95, R96) -/

/-- The stack address `0x0100 + zext_16(S)` (R95). -/
def stackAddr (sp : Byte) : Word := 0x0100 + zext16 sp

/-- `Push(v)` (R95): the store, then S down by one unless it is 0x00. -/
def push (v : Byte) (s : State) : State :=
  let stored := s.memWrite (stackAddr s.sp) v
  if s.sp = 0x00 then stored else stored.setSp (s.sp - 1)

/-- `Pop()` (R96): S up by one unless it is 0xFF, then the read. -/
def pop (s : State) : Byte × State :=
  let moved := if s.sp = 0xFF then s else s.setSp (s.sp + 1)
  (moved.memRead (stackAddr moved.sp), moved)

/-- The return of RTS and of RTI (R138, R139): low byte, high byte, plus one. -/
def returnFromStack (s : State) : State :=
  let lo := pop s
  let hi := pop lo.2
  hi.2.setPc (pair hi.1 lo.1 + 1)

end Sys2Proof.Machine
end

