-- ==== Sys2Proof/Machine/Flags.lean ====
section
/-! DEFINITION. The status register's bits and the flag computations of `alu_flags`: the flag places (10_state.md
R24), setZN (00_scope.md R15), the adder (41_arith_logic.md R98), the shifts and rotates (42_shift_rotate.md R109 to
R112) and the compare (43_compare_incdec.md R113). -/

namespace Sys2Proof.Machine

/-- The bit of `P` each flag stands in (R24). -/
def Flag.bit : Flag → Nat
  | .n => 7
  | .v => 6
  | .u => 5
  | .b => 4
  | .d => 3
  | .i => 2
  | .z => 1
  | .c => 0

/-- A flag of a status byte. -/
def getFlag (p : Byte) (f : Flag) : Bool := p.getLsbD f.bit

/-- A status byte with one flag written and every other bit kept (R16). -/
def putFlag (p : Byte) (f : Flag) (b : Bool) : Byte :=
  if b then p ||| (1#8 <<< f.bit) else p &&& ~~~(1#8 <<< f.bit)

/-- `P.f`, read (R14). -/
def State.flag (s : State) (f : Flag) : Bool := getFlag s.p f

/-- `P.f <- b` (R14). -/
def State.setFlag (s : State) (f : Flag) (b : Bool) : State := s.setP (putFlag s.p f b)

/-- `setZN(v)` (R15). -/
def setZN (v : Byte) (s : State) : State := (s.setFlag .z (v == 0x00)).setFlag .n v.msb

/-- What the adder gives (R98). -/
structure AluSum where
  r : Byte
  c : Bool
  z : Bool
  n : Bool
  v : Bool
  deriving DecidableEq, Repr

/-- `add8` (R98): a 9-bit sum held in 16 bits; V is C XOR N, not signed overflow (R99). -/
def add8 (a m : Byte) (cin : Bool) : AluSum :=
  let sum : Word := zext16 a + zext16 m + (BitVec.ofBool cin).setWidth 16
  let r := loByte sum
  let c := sum.getLsbD 8
  let n := r.getLsbD 7
  ⟨r, c, r == 0x00, n, xor c n⟩

/-- A gets the sum, and C, Z, N and V its flags (R101, R102). -/
def addToA (m : Byte) (s : State) : State :=
  let q := add8 s.a m (s.flag .c)
  ((((s.setA q.r).setFlag .c q.c).setFlag .z q.z).setFlag .n q.n).setFlag .v q.v

/-- What a shift or rotate gives: the byte written back, the bit shifted out, and Z. -/
structure Shifted where
  r : Byte
  c : Bool
  z : Bool
  deriving DecidableEq, Repr

/-- ASL of a byte (R109), with Z as `P_ASL_Z` says. -/
def shiftLeft (asl : AslZ) (m : Byte) : Shifted :=
  let sum : Word := zext16 m <<< 1
  let r := loByte sum
  ⟨r, sum.getLsbD 8, match asl with
    | .result8 => r == 0x00
    | .intermediate9 => sum == 0x0000⟩

/-- LSR of a byte (R110). -/
def shiftRight (m : Byte) : Shifted :=
  let r := m >>> 1
  ⟨r, m.getLsbD 0, r == 0x00⟩

/-- ROL of a byte (R111). -/
def rotateLeft (m : Byte) (cin : Bool) : Shifted :=
  let r := (m <<< 1) ||| (BitVec.ofBool cin).setWidth 8
  ⟨r, m.getLsbD 7, r == 0x00⟩

/-- ROR of a byte (R112). -/
def rotateRight (m : Byte) (cin : Bool) : Shifted :=
  let r := (m >>> 1) ||| ((BitVec.ofBool cin).setWidth 8 <<< 7)
  ⟨r, m.getLsbD 0, r == 0x00⟩

/-- The flags after a shift or rotate: C the bit shifted out, Z and N of the result (R108 to R112). -/
def shiftFlags (q : Shifted) (s : State) : State :=
  ((s.setFlag .c q.c).setFlag .n (q.r.getLsbD 7)).setFlag .z q.z

/-- `compare(reg, m)` (R113): Z, N and C from the 16-bit difference; no register written. -/
def compareFlags (reg m : Byte) (s : State) : State :=
  let d : Word := zext16 reg - zext16 m
  ((s.setFlag .z (d == 0x0000)).setFlag .n (d.getLsbD 7)).setFlag .c (m.ule reg)

end Sys2Proof.Machine
end

