-- ==== Sys2Proof/Machine/Operands.lean ====
section
/-! DEFINITION. The addressing-mode resolver: the effective addresses (40_step_addressing.md R78 to R85), the three
entry points `fetch_operand` (R75), `store_to_last_operand` (R89) and `store_fresh` (R92), and the relative
branch (R94). -/

namespace Sys2Proof.Machine

/-- The 16-bit zero-page pointer at `t`, its high byte from the next zero-page address modulo 256 (R84, R85). -/
def zeroPagePointer (t : Byte) (s : State) : Word :=
  pair (s.memRead (zext16 (t + 1))) (s.memRead (zext16 t))

/-- `EA_fresh(mode)` (R78 to R85): consumes the operand bytes and gives the effective address; none for a mode
without one. -/
def eaFresh (m : Mode) (s : State) : Option (Word × State) :=
  match m with
  | .abs => some (fetch16 s)                                                       -- R78
  | .absx => let w := fetch16 s; some (w.1 + zext16 s.x, w.2)                       -- R79
  | .absy => let w := fetch16 s; some (w.1 + zext16 s.y, w.2)                       -- R80
  | .zp => let z := fetch8 s; some (zext16 z.1, z.2)                                -- R81
  | .zpx => let z := fetch8 s; some (zext16 (z.1 + s.x), z.2)                       -- R82
  | .zpy => let z := fetch8 s; some (zext16 (z.1 + s.y), z.2)                       -- R83
  | .indx => let z := fetch8 s; some (zeroPagePointer (z.1 + s.x) z.2, z.2)         -- R84
  | .indy => let z := fetch8 s; some (zeroPagePointer z.1 z.2 + zext16 s.y, z.2)    -- R85
  | .imp | .imm | .ind | .acc | .rel => none

/-- `fetch_operand(mode)` (R75): the operand and the state after its bytes are consumed; none for `ind` and `rel`,
for which the spec lists no behaviour (R87). -/
def fetchOperand (m : Mode) (s : State) : Option (Byte × State) :=
  match m with
  | .imp => some (0x00, s)             -- R76
  | .imm => some (fetch8 s)            -- R77
  | .acc => some (s.a, s)              -- R86
  | .abs | .absx | .absy | .zp | .zpx | .zpy | .indx | .indy =>
    (eaFresh m s).map fun r => (r.2.memRead r.1, r.2)
  | .ind | .rel => none

/-- The effective address `store_to_last_operand` computes again from the operand bytes at PC - 1 and PC - 2
(R89); none for a mode it does not store to memory in. -/
def eaLast (m : Mode) (s : State) : Option Word :=
  match m with
  | .abs => some (pair (s.memRead (s.pc - 1)) (s.memRead (s.pc - 2)))
  | .absx => some (pair (s.memRead (s.pc - 1)) (s.memRead (s.pc - 2)) + zext16 s.x)
  | .zp => some (zext16 (s.memRead (s.pc - 1)))
  | .zpx => some (zext16 (s.memRead (s.pc - 1) + s.x))
  | .imp | .imm | .absy | .zpy | .ind | .indx | .indy | .acc | .rel => none

/-- `store_to_last_operand(mode, v)` (R89); no operation in the modes it does not support (R90). -/
def storeToLast (m : Mode) (v : Byte) (s : State) : State :=
  match m with
  | .acc => s.setA v
  | .abs | .absx | .zp | .zpx | .imp | .imm | .absy | .zpy | .ind | .indx | .indy | .rel =>
    match eaLast m s with
    | some ea => s.memWrite ea v
    | none => s

/-- `store_fresh(mode, v)` (R92); none for a mode without an effective address (R93). -/
def storeFresh (m : Mode) (v : Byte) (s : State) : Option State :=
  (eaFresh m s).map fun r => r.2.memWrite r.1 v

/-- `branch(cond)` (R94): the displacement is always consumed, the target is taken only if `cond` holds. -/
def branch (cond : Bool) (s : State) : State :=
  let d := fetch8 s
  if cond then d.2.setPc (d.2.pc + sext16 d.1) else d.2

/-- A reading instruction (R74): its operand by `fetch_operand`, then its effect; the step is refused in a mode
`fetch_operand` does not list (R87). -/
def withOperand (m : Mode) (s : State) (effect : Byte → State → State) : Result :=
  match fetchOperand m s with
  | some r => .next (effect r.1 r.2)
  | none => .refused (.fetchOperandMode m)

/-- A pure store (R74): `store_fresh` of `v`; the step is refused in a mode `store_fresh` does not list (R93). -/
def storeByte (m : Mode) (v : Byte) (s : State) : Result :=
  match storeFresh m v s with
  | some t => .next t
  | none => .refused (.storeFreshMode m)

end Sys2Proof.Machine
end

