-- ==== Sys2Proof/Machine/ArithLogic.lean ====
section
/-! DEFINITION. ADC, SBC, AND, ORA, EOR and BIT (41_arith_logic.md R98 to R106). -/

namespace Sys2Proof.Machine

/-- ADC (R101); binary whatever D holds (R100). -/
def execAdc (m : Mode) (s : State) : Result := withOperand m s addToA

/-- SBC (R102): the operand complemented, then the adder. -/
def execSbc (m : Mode) (s : State) : Result := withOperand m s fun v t => addToA (v ^^^ 0xFF) t

/-- AND (R103). -/
def execAnd (m : Mode) (s : State) : Result := withOperand m s fun v t => setZN (t.a &&& v) (t.setA (t.a &&& v))

/-- ORA (R104). -/
def execOra (m : Mode) (s : State) : Result := withOperand m s fun v t => setZN (t.a ||| v) (t.setA (t.a ||| v))

/-- EOR (R105). -/
def execEor (m : Mode) (s : State) : Result := withOperand m s fun v t => setZN (t.a ^^^ v) (t.setA (t.a ^^^ v))

/-- BIT (R106): Z from A & m, N and V from the operand alone. -/
def execBit (m : Mode) (s : State) : Result :=
  withOperand m s fun v t =>
    ((t.setFlag .z ((t.a &&& v) == 0x00)).setFlag .n (v.getLsbD 7)).setFlag .v (v.getLsbD 6)

end Sys2Proof.Machine
end

