-- ==== Sys2Proof/Machine/BrkNopUndoc.lean ====
section
/-! DEFINITION. BRK, NOP and the placeholder of the undocumented opcodes (46_brk_nop_undoc.md R161 to R163). -/

namespace Sys2Proof.Machine

/-- BRK (R161): PC gets 0x0000 and nothing else happens. -/
def execBrk (s : State) : Result := .next (s.setPc 0x0000)

/-- NOP (R162): nothing; the fetch has moved PC past the opcode. -/
def execNop (s : State) : Result := .next s

/-- `repeat n times: Fetch8()`, the bytes discarded (R163). -/
def discardBytes : Nat → State → State
  | 0, s => s
  | n + 1, s => discardBytes n (fetch8 s).2

/-- XXX (R163), for any parameters. -/
def execXxxWith (p : Params) (op : Byte) (s : State) : Result := .next (discardBytes (p.undocLen op).val s)

/-- XXX (R163): `P_UNDOC_LEN(op)` operand bytes are consumed and nothing else happens. -/
def execXxx (op : Byte) (s : State) : Result := execXxxWith params op s

end Sys2Proof.Machine
end

