-- ==== Sys2Proof/Machine/CompareIncDec.lean ====
section
/-! DEFINITION. CMP, CPX, CPY, INC, DEC, INX, INY, DEX and DEY (43_compare_incdec.md R113 to R125). -/

namespace Sys2Proof.Machine

/-- CMP (R115). -/
def execCmp (m : Mode) (s : State) : Result := withOperand m s fun v t => compareFlags t.a v t

/-- CPX (R116). -/
def execCpx (m : Mode) (s : State) : Result := withOperand m s fun v t => compareFlags t.x v t

/-- CPY (R117). -/
def execCpy (m : Mode) (s : State) : Result := withOperand m s fun v t => compareFlags t.y v t

/-- INC (R119). -/
def execInc (m : Mode) (s : State) : Result := withOperand m s fun v t => setZN (v + 1) (storeToLast m (v + 1) t)

/-- DEC (R120). -/
def execDec (m : Mode) (s : State) : Result := withOperand m s fun v t => setZN (v - 1) (storeToLast m (v - 1) t)

/-- INX (R121). -/
def execInx (s : State) : Result := .next (setZN (s.x + 1) (s.setX (s.x + 1)))

/-- INY (R122). -/
def execIny (s : State) : Result := .next (setZN (s.y + 1) (s.setY (s.y + 1)))

/-- DEX (R123). -/
def execDex (s : State) : Result := .next (setZN (s.x - 1) (s.setX (s.x - 1)))

/-- DEY (R124). -/
def execDey (s : State) : Result := .next (setZN (s.y - 1) (s.setY (s.y - 1)))

end Sys2Proof.Machine
end

