-- ==== Sys2Proof/Machine/Control.lean ====
section
/-! DEFINITION. The branches, JMP, JSR, RTS and RTI (44_control.md R126 to R140). The step has already consumed the
opcode, so PC is the address of the first operand byte (40_step_addressing.md R73). -/

namespace Sys2Proof.Machine

/-- BCC (R128). -/
def execBcc (s : State) : Result := .next (branch (!s.flag .c) s)

/-- BCS (R129). -/
def execBcs (s : State) : Result := .next (branch (s.flag .c) s)

/-- BNE (R130). -/
def execBne (s : State) : Result := .next (branch (!s.flag .z) s)

/-- BEQ (R131). -/
def execBeq (s : State) : Result := .next (branch (s.flag .z) s)

/-- BPL (R132). -/
def execBpl (s : State) : Result := .next (branch (!s.flag .n) s)

/-- BMI (R133). -/
def execBmi (s : State) : Result := .next (branch (s.flag .n) s)

/-- BVC (R134). -/
def execBvc (s : State) : Result := .next (branch (!s.flag .v) s)

/-- BVS (R135). -/
def execBvs (s : State) : Result := .next (branch (s.flag .v) s)

/-- JMP (R136): absolute, or through the pointer at the operand, with no page-boundary bug. R136 has no case
for another mode, and the opcode map gives JMP none (log 13). -/
def execJmp (m : Mode) (s : State) : Result :=
  let w := fetch16 s
  match m with
  | .abs => .next (w.2.setPc w.1)
  | .ind => .next (w.2.setPc (pair (w.2.memRead (w.1 + 1)) (w.2.memRead w.1)))
  | .imp | .imm | .absx | .absy | .zp | .zpx | .zpy | .indx | .indy | .acc | .rel => .refused (.jumpMode m)

/-- JSR (R137): the address of its own last byte is pushed, high byte first, before the operand is read (D16). -/
def execJsr (s : State) : Result :=
  let ret := s.pc + 1
  let w := fetch16 (push (loByte ret) (push (hiByte ret) s))
  .next (w.2.setPc w.1)

/-- RTS (R138). -/
def execRts (s : State) : Result := .next (returnFromStack s)

/-- RTI (R139): the same as RTS; P is not popped. -/
def execRti (s : State) : Result := .next (returnFromStack s)

end Sys2Proof.Machine
end

