-- ==== Sys2Proof/Machine/LoadStore.lean ====
section
/-! DEFINITION. LDA, LDX, LDY, STA, STX and STY (47_load_store.md R164 to R170). -/

namespace Sys2Proof.Machine

/-- LDA (R165). -/
def execLda (m : Mode) (s : State) : Result := withOperand m s fun v t => setZN v (t.setA v)

/-- LDX (R166). -/
def execLdx (m : Mode) (s : State) : Result := withOperand m s fun v t => setZN v (t.setX v)

/-- LDY (R167). -/
def execLdy (m : Mode) (s : State) : Result := withOperand m s fun v t => setZN v (t.setY v)

/-- STA (R168). -/
def execSta (m : Mode) (s : State) : Result := storeByte m s.a s

/-- STX (R169). -/
def execStx (m : Mode) (s : State) : Result := storeByte m s.x s

/-- STY (R170). -/
def execSty (m : Mode) (s : State) : Result := storeByte m s.y s

end Sys2Proof.Machine
end

