-- ==== Sys2Proof/Machine/ShiftRotate.lean ====
section
/-! DEFINITION. ASL, LSR, ROL and ROR (42_shift_rotate.md R107 to R112). -/

namespace Sys2Proof.Machine

/-- The read-modify-write shape of R107: one `fetch_operand`, one `store_to_last_operand`, then the flags. -/
def shiftOperand (m : Mode) (s : State) (f : Byte → Bool → Shifted) : Result :=
  withOperand m s fun v t => shiftFlags (f v (t.flag .c)) (storeToLast m (f v (t.flag .c)).r t)

/-- ASL (R109), for any parameters. -/
def execAslWith (p : Params) (m : Mode) (s : State) : Result := shiftOperand m s fun v _ => shiftLeft p.aslZ v

/-- ASL (R109). -/
def execAsl (m : Mode) (s : State) : Result := execAslWith params m s

/-- LSR (R110). -/
def execLsr (m : Mode) (s : State) : Result := shiftOperand m s fun v _ => shiftRight v

/-- ROL (R111). -/
def execRol (m : Mode) (s : State) : Result := shiftOperand m s rotateLeft

/-- ROR (R112). -/
def execRor (m : Mode) (s : State) : Result := shiftOperand m s rotateRight

end Sys2Proof.Machine
end

