-- ==== Sys2Proof/Machine/StackFlagTransfer.lean ====
section
/-! DEFINITION. PHA, PHP, PLA, PLP, TSX, TXS, the flag instructions and the transfers
(45_stack_flag_transfer.md R141 to R160). -/

namespace Sys2Proof.Machine

/-- PHA (R142). -/
def execPha (s : State) : Result := .next (push s.a s)

/-- PHP (R143): all eight bits of P as they are. -/
def execPhp (s : State) : Result := .next (push s.p s)

/-- PLA (R144). -/
def execPla (s : State) : Result :=
  let r := pop s
  .next (setZN r.1 (r.2.setA r.1))

/-- PLP (R145): all eight bits of P, B and bit 5 among them. -/
def execPlp (s : State) : Result :=
  let r := pop s
  .next (r.2.setP r.1)

/-- TSX (R146). -/
def execTsx (s : State) : Result := .next (setZN s.sp (s.setX s.sp))

/-- TXS (R147): no flag. -/
def execTxs (s : State) : Result := .next (s.setSp s.x)

/-- CLC (R149). -/
def execClc (s : State) : Result := .next (s.setFlag .c false)

/-- SEC (R150). -/
def execSec (s : State) : Result := .next (s.setFlag .c true)

/-- CLD (R151). -/
def execCld (s : State) : Result := .next (s.setFlag .d false)

/-- SED (R152). -/
def execSed (s : State) : Result := .next (s.setFlag .d true)

/-- CLI (R153). -/
def execCli (s : State) : Result := .next (s.setFlag .i false)

/-- SEI (R154). -/
def execSei (s : State) : Result := .next (s.setFlag .i true)

/-- CLV (R155). -/
def execClv (s : State) : Result := .next (s.setFlag .v false)

/-- TAX (R157). -/
def execTax (s : State) : Result := .next (setZN s.a (s.setX s.a))

/-- TAY (R158). -/
def execTay (s : State) : Result := .next (setZN s.a (s.setY s.a))

/-- TXA (R159). -/
def execTxa (s : State) : Result := .next (setZN s.x (s.setA s.x))

/-- TYA (R160). -/
def execTya (s : State) : Result := .next (setZN s.y (s.setA s.y))

end Sys2Proof.Machine
end

