-- ==== Sys2Proof/Machine/Step.lean ====
section
/-! DEFINITION. `step()` (40_step_addressing.md R71): fetch the opcode, decode it, perform its rule. It looks at no
other state: it runs at any PC, 0x0000 and 0x0001 among them; only the driver tests PC (60_exceptions.md R182,
Sys2Proof/Machine/HostInterface.lean). -/

namespace Sys2Proof.Machine

/-- One instruction step (R71). -/
def step (s : State) : Host.Outcome State Fault Refusal :=
  exec (decode (fetch8 s).1) (fetch8 s).2

/-- `s` with an instruction of the opcode table placed in `M` at PC, where `step` fetches next (log 14). -/
def State.withFetchWord (s : State) (nbits w : Nat) : State :=
  s.pokeBytes s.pc (wordBytes nbits w)

end Sys2Proof.Machine
end

