-- ==== Sys2Proof/Machine/Parametric.lean ====
section
/-! DEFINITION. The instructions and the step for any values of the parameters of 00_scope.md R11: "A model takes
each as an argument". ASL depends on `P_ASL_Z` (R109) and the placeholder on `P_UNDOC_LEN` (R163); no other
instruction depends on a parameter. With `Machine.params` these are `exec` and `step` (logs 1 and 2). -/

namespace Sys2Proof.Machine

/-- The rule of an instruction, for any parameters. -/
def execWith (p : Params) (i : Instr) (s : State) : Result :=
  match i with
  | .asl m => execAslWith p m s
  | .xxx op => execXxxWith p op s
  | .adc _ | .sbc _ | .and _ | .ora _ | .eor _ | .bit _ | .lsr _ | .rol _ | .ror _
  | .cmp _ | .cpx _ | .cpy _ | .inc _ | .dec _ | .inx | .iny | .dex | .dey
  | .bcc | .bcs | .bne | .beq | .bpl | .bmi | .bvc | .bvs | .jmp _ | .jsr | .rts | .rti
  | .pha | .php | .pla | .plp | .tsx | .txs | .clc | .sec | .cld | .sed | .cli | .sei | .clv
  | .tax | .tay | .txa | .tya | .brk | .nop
  | .lda _ | .ldx _ | .ldy _ | .sta _ | .stx _ | .sty _ => exec i s

/-- `step()` (R71), for any parameters. -/
def stepWith (p : Params) (s : State) : Result :=
  execWith p (decode (fetch8 s).1) (fetch8 s).2

end Sys2Proof.Machine
end

