-- ==== Sys2Proof/Machine/HostInterface.lean ====
section
/-! DEFINITION. The host interface and the execution driver: the seven host operations (60_exceptions.md R185), the
run (R180 to R184), the rule that no host operation overlaps a run (R186), and the discovery of the play address
(70_reset_and_hazards.md R200). -/

namespace Sys2Proof.Machine

/-! ### Reset (70_reset_and_hazards.md) -/

/-- `reset_to(pc, a)` (R195): the registers, with `M` and `SND` unchanged and nothing run. -/
def resetTo (pc : Word) (a : Byte) (s : State) : State :=
  { s with a := a, x := 0x00, y := 0x00, sp := 0xFF, p := 0x00, pc := pc }

/-- `reset()` (R194), for any parameters. -/
def hostReset (p : Params) (s : State) : State :=
  { s with a := 0x00, x := 0x00, y := 0x00, sp := 0xFF, p := 0x00, pc := p.resetPc }

/-- The block at power-up, after its first `reset()`, for any parameters (R32, R196). -/
def powerUp (p : Params) : State :=
  hostReset p { a := 0x00, x := 0x00, y := 0x00, sp := 0xFF, p := 0x00, pc := p.resetPc, mem := p.initMem, snd := [] }

/-! ### Bus operations of the host (20_memory.md) -/

/-- `accepted(dest, len)` (R38): the unbounded sum stays within 65535. -/
def bulkAccepted (dest : Word) (len : Nat) : Bool := decide (dest.toNat + len ≤ 65535)

/-- The stores of an accepted bulk request (R39, R40): into the array, or through `MemWrite` (R41). -/
def bulkStore (p : Params) (dest : Word) (bytes : List Byte) (s : State) : State :=
  if p.bulkIntercept then s.memWriteBytes dest bytes else s.pokeBytes dest bytes

/-- `bulk_copy(dest, bytes)` (R38, R39, R41). -/
def bulkCopy (p : Params) (dest : Word) (bytes : List Byte) (s : State) : State :=
  if bulkAccepted dest bytes.length then bulkStore p dest bytes s else s

/-- `bulk_fill(dest, value, len)` (R38, R40, R41). -/
def bulkFill (p : Params) (dest : Word) (value : Byte) (len : Nat) (s : State) : State :=
  if bulkAccepted dest len then bulkStore p dest (List.replicate len value) s else s

/-- The play address (R200): the file's own, or the little-endian pair at 0x0314 when that is 0. -/
def playAddress (filePlay : Word) (s : State) : Word :=
  if filePlay = 0x0000 then pair (s.memRead 0x0315) (s.memRead 0x0314) else filePlay

/-! ### The run (60_exceptions.md) -/

/-- The start of `run_subroutine(entry, seed)` (R180): the registers, then the two pushes of the sentinel (R181). -/
def enterRun (entry : Word) (seed : Byte) (s : State) : State :=
  push 0x00 (push 0x00 (resetTo entry seed s))

/-- The driver's loop ends where PC <= 1 (R182). -/
def stopped (s : State) : Bool := decide (s.pc.toNat ≤ 1)

/-- What a bounded number of turns of the driver's loop comes to. `outOfFuel` is no end of run (R184). -/
inductive RunResult where
  | ended (s : State)
  | outOfFuel (s : State)
  | refused (r : Refusal)
  deriving DecidableEq, Repr

/-- The driver's loop (R180, R182), for any parameters and at most `n` steps: a test aid (R184, log 18). PC is tested
before every step. -/
def runLoop (p : Params) : Nat → State → RunResult
  | 0, s => if stopped s then .ended s else .outOfFuel s
  | n + 1, s =>
    if stopped s then .ended s
    else match stepWith p s with
      | .next t => runLoop p n t
      | .fault f => nomatch f
      | .refused r => .refused r

/-- The run of `entry` and `seed` from `s` ends in `t` (R183), for any parameters: `t` is the first state of the loop
with PC <= 1. -/
def RunEnds (p : Params) (entry : Word) (seed : Byte) (s t : State) : Prop :=
  ∃ n, runLoop p n (enterRun entry seed s) = .ended t

/-! ### The block between and during runs -/

/-- Whether a run is in progress. -/
inductive Phase where
  | idle
  | running
  deriving DecidableEq, Repr

/-- One instance of the block (R187). -/
structure Block where
  core : State
  phase : Phase
  deriving DecidableEq, Repr

/-- The seven operations of R185. -/
inductive HostOp where
  | reset
  | resetTo (pc : Word) (a : Byte)
  | runSubroutine (pc : Word) (a : Byte)
  | readByte (addr : Word)
  | writeByte (addr : Word) (value : Byte)
  | bulkCopy (dest : Word) (bytes : List Byte)
  | bulkFill (dest : Word) (value : Byte) (len : Nat)
  deriving DecidableEq, Repr

/-- The effect of an operation on the state (R185); for `run_subroutine`, its start (R180). -/
def HostOp.apply (p : Params) : HostOp → State → State
  | .reset, s => hostReset p s
  | .resetTo pc a, s => Machine.resetTo pc a s
  | .runSubroutine pc a, s => enterRun pc a s
  | .readByte _, s => s
  | .writeByte addr value, s => s.memWrite addr value
  | .bulkCopy dest bytes, s => Machine.bulkCopy p dest bytes s
  | .bulkFill dest value len, s => Machine.bulkFill p dest value len s

/-- What the host gets back (R185): a byte from `read_byte`, nothing from the others. -/
def HostOp.reply (s : State) : HostOp → Option Byte
  | .readByte addr => some (s.memRead addr)
  | .reset | .resetTo _ _ | .runSubroutine _ _ | .writeByte _ _ | .bulkCopy _ _ | .bulkFill _ _ _ => none

/-- The phase an operation leaves: only `run_subroutine` starts a run (R186). -/
def HostOp.phaseAfter : HostOp → Phase
  | .runSubroutine _ _ => .running
  | .reset | .resetTo _ _ | .readByte _ | .writeByte _ _ | .bulkCopy _ _ | .bulkFill _ _ _ => .idle

/-- The host calls an operation: its reply and the block after it; no move while a run is in progress (R186). -/
def Block.call (p : Params) (op : HostOp) (b : Block) : Option (Option Byte × Block) :=
  match b.phase with
  | .running => none
  | .idle => some (op.reply b.core, ⟨op.apply p b.core, op.phaseAfter⟩)

/-- One turn of the block by itself, for any parameters: nothing while idle (R193); while running, the end of the run
if PC <= 1, else one step (R180, R182). -/
def Block.turn (p : Params) (b : Block) : Host.Outcome Block Fault Refusal :=
  match b.phase with
  | .idle => .next b
  | .running =>
    if stopped b.core then .next ⟨b.core, .idle⟩
    else match stepWith p b.core with
      | .next t => .next ⟨t, .running⟩
      | .fault f => .fault f
      | .refused r => .refused r

end Sys2Proof.Machine
end

