-- ==== Sys2Proof/Safety.lean ====
section
/-! DEFINITION. The terms claims are stated in: the state invariant, completion, what it means that exactly
certain flags are written, and the spec's tables of which instruction writes or reads what
(10_state.md R19 to R25, 40_step_addressing.md R74). -/

namespace Sys2Proof.Machine

/-- The invariant of the model: memory is in its canonical form. -/
abbrev State.Inv (s : State) : Prop := s.mem.wf

/-- A step of `s` completes (R72): it is neither a fault nor a refusal. -/
def State.Completes (s : State) : Prop := ∃ t, step s = .next t

/-- The address after the operand bytes of mode `m`, when PC is the address of the first (R73). -/
def nextPc (m : Mode) (s : State) : Word := s.pc + BitVec.ofNat 16 m.operandBytes

/-- `p'` is `p` with exactly the flags that `written` gives a value for written (R16). -/
def FlagsWritten (p p' : Byte) (written : Flag → Option Bool) : Prop :=
  ∀ f, getFlag p' f = (written f).getD (getFlag p f)

/-- Z and N of an 8-bit value given as a number (R15). -/
def znOf (v : Nat) : Flag → Option Bool
  | .z => some (decide (v = 0))
  | .n => some (decide (128 ≤ v))
  | .v | .u | .b | .d | .i | .c => none

/-- Z and N of an 8-bit value given as a number, and C. -/
def zncOf (v : Nat) (c : Bool) : Flag → Option Bool
  | .c => some c
  | .z => some (decide (v = 0))
  | .n => some (decide (128 ≤ v))
  | .v | .u | .b | .d | .i => none

/-- Z and N of an 8-bit value given as a number, C, and V as C XOR N (R98, R99). -/
def znvcOf (v : Nat) (c : Bool) : Flag → Option Bool
  | .c => some c
  | .z => some (decide (v = 0))
  | .n => some (decide (128 ≤ v))
  | .v => some (xor c (decide (128 ≤ v)))
  | .u | .b | .d | .i => none

/-- One flag, written with one value. -/
def oneFlag (g : Flag) (b : Bool) (f : Flag) : Option Bool := if f = g then some b else none

/-! ### The shapes of result claims -/

/-- `op` and no other opcode byte decodes to `i`, and `i` answers, from every state, a next state in `effect`. -/
def Implied (op : Byte) (i : Instr) (effect : State → State → Prop) : Prop :=
  (∀ k, decode k = i ↔ k = op) ∧ ∀ s, ∃ t, exec i s = .next t ∧ effect s t

/-- Exactly the rows (opcode byte, mode) decode to the kind `mk`; and in each row's mode the kind reads its operand
`v` with `fetch_operand`, which moves PC past the operand bytes, and answers a next state in `effect`, which is given
`v`, the state with PC moved, and the next state. -/
def ReadsOperand (mk : Mode → Instr) (rows : List (Byte × Mode)) (effect : Byte → State → State → Prop) : Prop :=
  (∀ op m, decode op = mk m ↔ (op, m) ∈ rows) ∧
  ∀ op m, (op, m) ∈ rows → ∀ s, ∃ v t,
    fetchOperand m s = some (v, { s with pc := nextPc m s }) ∧
    exec (mk m) s = .next t ∧ effect v { s with pc := nextPc m s } t

/-- Exactly the rows decode to the kind `mk`; and in each row's mode `run` (what the kind does) replaces its operand
`v` by `result v C`, in A in accumulator mode and with one bus write at the operand's effective address
otherwise, writes exactly the flags `flags v C`, and moves PC past the operand bytes. -/
def ModifiesOperand (mk : Mode → Instr) (run : Mode → State → Result) (rows : List (Byte × Mode))
    (result : Byte → Bool → Nat) (flags : Byte → Bool → Flag → Option Bool) : Prop :=
  (∀ op m, decode op = mk m ↔ (op, m) ∈ rows) ∧
  ∀ op m, (op, m) ∈ rows → ∀ s,
    (m = .acc → ∃ p', FlagsWritten s.p p' (flags s.a (s.flag .c)) ∧
      run m s = .next { s with a := BitVec.ofNat 8 (result s.a (s.flag .c)), p := p' }) ∧
    (m ≠ .acc → ∃ ea p', eaFresh m s = some (ea, { s with pc := nextPc m s }) ∧
      FlagsWritten s.p p' (flags (s.memRead ea) (s.flag .c)) ∧
      run m s = .next ({ s with pc := nextPc m s, p := p' }.memWrite ea
        (BitVec.ofNat 8 (result (s.memRead ea) (s.flag .c)))))

/-- Exactly the rows decode to the kind `mk`; and in each row's mode the kind moves PC past the operand bytes and
makes one bus write of the register `reg` at the effective address of its operand. -/
def StoresRegister (mk : Mode → Instr) (rows : List (Byte × Mode)) (reg : State → Byte) : Prop :=
  (∀ op m, decode op = mk m ↔ (op, m) ∈ rows) ∧
  ∀ op m, (op, m) ∈ rows → ∀ s, ∃ ea,
    eaFresh m s = some (ea, { s with pc := nextPc m s }) ∧
    exec (mk m) s = .next ({ s with pc := nextPc m s }.memWrite ea (reg s))

/-- `t` is `s` after the byte `v` is pushed: stored at 0x0100 + S, S down by one unless it is 0x00, every other byte
of memory and every other piece of state as before (R95). -/
def Pushed (v : Byte) (s t : State) : Prop :=
  (∃ m', t = { s with mem := m', sp := BitVec.ofNat 8 (s.sp.toNat - 1) }) ∧
  ∀ b, t.memRead b = if b.toNat = 0x0100 + s.sp.toNat then v else s.memRead b

/-- S after one pop, as a number: up by one unless it is 0xFF (R96). -/
def popped (sp : Nat) : Nat := min 255 (sp + 1)

/-- The byte at a stack offset given as a number. -/
def stackByte (s : State) (offset : Nat) : Byte := s.memRead (BitVec.ofNat 16 (0x0100 + offset))

/-- The 16-bit little-endian number in the two bytes at an address (R43). -/
def wordAt (s : State) (addr : Word) : Nat := (s.memRead addr).toNat + 256 * (s.memRead (addr + 1)).toNat

/-- The events of bytes sent in ascending order to consecutive addresses from `dest`: one for each that falls in the
window (R34, R36, R41). -/
def windowEvents (dest : Nat) : List Byte → List SoundEvent
  | [] => []
  | v :: rest =>
    if 0xD400 ≤ dest ∧ dest ≤ 0xD7FF then ⟨BitVec.ofNat 5 (dest % 32), v⟩ :: windowEvents (dest + 1) rest
    else windowEvents (dest + 1) rest

end Sys2Proof.Machine

namespace Sys2Proof

open Sys2Proof.Machine

/-- The writers of Z and N (R25). -/
def Instr.writesZN : Instr → Bool
  | .adc _ | .sbc _ | .and _ | .ora _ | .eor _ | .bit _ | .asl _ | .lsr _ | .rol _ | .ror _
  | .cmp _ | .cpx _ | .cpy _ | .inc _ | .dec _ | .inx | .iny | .dex | .dey
  | .lda _ | .ldx _ | .ldy _ | .pla | .tax | .tay | .txa | .tya | .tsx | .plp => true
  | _ => false

/-- The "written by" column of R25. -/
def Instr.writesFlag (i : Instr) : Flag → Bool
  | .c => match i with
    | .adc _ | .sbc _ | .asl _ | .lsr _ | .rol _ | .ror _ | .cmp _ | .cpx _ | .cpy _ | .clc | .sec | .plp => true
    | _ => false
  | .z => i.writesZN
  | .n => i.writesZN
  | .v => match i with
    | .adc _ | .sbc _ | .bit _ | .clv | .plp => true
    | _ => false
  | .d => match i with
    | .cld | .sed | .plp => true
    | _ => false
  | .i => match i with
    | .cli | .sei | .plp => true
    | _ => false
  | .b => i == .plp
  | .u => i == .plp

/-- The "read by" column of R25. -/
def Instr.readsFlag (i : Instr) : Flag → Bool
  | .c => match i with
    | .adc _ | .sbc _ | .rol _ | .ror _ | .bcc | .bcs | .php => true
    | _ => false
  | .z => match i with
    | .bne | .beq | .php => true
    | _ => false
  | .n => match i with
    | .bpl | .bmi | .php => true
    | _ => false
  | .v => match i with
    | .bvc | .bvs | .php => true
    | _ => false
  | .d => i == .php
  | .i => i == .php
  | .b => i == .php
  | .u => i == .php

/-- The instructions that write A: those R19 lists as writing it among its readers and writers. -/
def Instr.writesA : Instr → Bool
  | .adc _ | .sbc _ | .and _ | .ora _ | .eor _ | .asl .acc | .lsr .acc | .rol .acc | .ror .acc
  | .inc .acc | .dec .acc | .pla | .txa | .tya | .lda _ => true
  | _ => false

/-- The instructions that write X (R20). -/
def Instr.writesX : Instr → Bool
  | .ldx _ | .inx | .dex | .tax | .tsx => true
  | _ => false

/-- The instructions that write Y (R20). -/
def Instr.writesY : Instr → Bool
  | .ldy _ | .iny | .dey | .tay => true
  | _ => false

/-- The instructions that write S: "by TXS, by every push and pop" (R21). -/
def Instr.writesS : Instr → Bool
  | .txs | .pha | .php | .pla | .plp | .jsr | .rts | .rti => true
  | _ => false

/-- The instructions that write PC themselves after their operand bytes (R73, R126, R161). -/
def Instr.transfersControl : Instr → Bool
  | .bcc | .bcs | .bne | .beq | .bpl | .bmi | .bvc | .bvs | .jmp _ | .jsr | .rts | .rti | .brk => true
  | _ => false

/-- The instructions that make a bus write: the pure stores, the read-modify-writes in a memory mode, and the
pushes (R74, R95, R107). -/
def Instr.writesBus : Instr → Bool
  | .sta _ | .stx _ | .sty _ | .pha | .php | .jsr => true
  | .asl m | .lsr m | .rol m | .ror m | .inc m | .dec m => m != .acc
  | _ => false

end Sys2Proof
end

