-- ==== Sys2Proof/Certificates/Slice0/Obligations.lean ====
section
/-! DEFINITION. The statements for the provers. Each docstring names the rules of spec/ it rests on. -/

open Sys2Proof Sys2Proof.Machine

/-! ### Encoding -/

/-- Words written from the encodings of R101 to R170 decode to the instructions they stand for; the cells are the
spec's general knowledge (D2, log 7). -/
def Obligations.WordsOfTheEncodingsDecode : Prop :=
  decodeTableWord 8 0b10101001 = some (.lda .imm) ∧
  decodeTableWord 8 0b00000000 = some .brk ∧
  decodeTableWord 8 0b01100000 = some .rts ∧
  decodeTableWord 8 0b01111101 = some (.adc .absx) ∧
  decodeTableWord 8 0b00100100 = some (.bit .zp) ∧
  decodeTableWord 8 0b01101010 = some (.ror .acc) ∧
  decodeTableWord 8 0b11000000 = some (.cpy .imm) ∧
  decodeTableWord 8 0b10010000 = some .bcc ∧
  decodeTableWord 8 0b10011010 = some .txs ∧
  decodeTableWord 8 0b10010110 = some (.stx .zpy) ∧
  decodeTableWord 8 0b11101011 = some (.xxx 0xEB) ∧
  decodeBytes params [0x6C, 0x00, 0x03, 0xEA] = .ok ⟨.jmp .ind, [0x00, 0x03], [0xEA]⟩ ∧
  decodeBytes params [0x8D, 0x18] = .error .operandMissing

/-- Every byte decodes to a well-formed instruction whose opcode byte it is (R57, R61, R63; D2, log 7): no byte is
refused, and no two bytes decode to one instruction. -/
def Obligations.EveryOpcodeByteDecodes : Prop :=
  ∀ op, (decode op).wf = true ∧ opcodeOf (decode op) = some op

/-- Decode of encode: a well-formed instruction with its operand bytes, whatever they are, is read back whole from its
bytes, whatever follows them, for every `P_UNDOC_LEN` (R55, R57, R64; logs 1, 7, 9). -/
def Obligations.DecodeInvertsEncode : Prop :=
  ∀ (p : Params) (i : Instr) (operands rest : List Byte),
    i.wf = true → operands.length = i.operandBytes p →
    ∃ bytes, encode p i operands = some bytes ∧ bytes.length = i.length p ∧
      decodeBytes p (bytes ++ rest) = .ok ⟨i, operands, rest⟩

/-- Encode of decode: what is read from a byte sequence, encoded again, is the part of the sequence that was read. -/
def Obligations.EncodeInvertsDecode : Prop :=
  ∀ (p : Params) (bytes : List Byte) (d : Decoded), decodeBytes p bytes = .ok d →
    ∃ word, encode p d.instr d.operands = some word ∧ word ++ d.rest = bytes

/-- The bits of P (R24, the spec's D5, log 8). -/
def Obligations.StatusByteIsItsFlags : Prop :=
  ∀ p : Byte, p.toNat =
    128 * (getFlag p .n).toNat + 64 * (getFlag p .v).toNat + 32 * (getFlag p .u).toNat + 16 * (getFlag p .b).toNat +
    8 * (getFlag p .d).toNat + 4 * (getFlag p .i).toNat + 2 * (getFlag p .z).toNat + (getFlag p .c).toNat

/-! ### The step -/

/-- "fetch one opcode byte at `pc` (post-increment), decode via the Opcode Table, dispatch on `kind`" (R71); and the
same for every parameter record of R11 (logs 1, 2), on which no instruction but ASL (R109) and the placeholder (R163)
depends. The codec over a byte sequence and the well-formed instructions are those of logs 7 and 9 (R57, R61). -/
def Obligations.StepRunsTheDecodedInstruction : Prop :=
  ∀ s : State,
    step s = exec (decode (s.memRead s.pc)) { s with pc := s.pc + 1 } ∧
    (∀ d, decodeBytes params [s.memRead s.pc, s.memRead (s.pc + 1), s.memRead (s.pc + 2)] = .ok d →
      d.instr.wf = true ∧ step s = exec d.instr { s with pc := s.pc + 1 }) ∧
    step s = stepWith params s ∧
    ∀ p : Params,
      stepWith p s = execWith p (decode (s.memRead s.pc)) { s with pc := s.pc + 1 } ∧
      (∀ d, decodeBytes p [s.memRead s.pc, s.memRead (s.pc + 1), s.memRead (s.pc + 2)] = .ok d →
        d.instr.wf = true ∧ stepWith p s = execWith p d.instr { s with pc := s.pc + 1 }) ∧
      ∀ i : Instr, (∀ m, i ≠ .asl m) → (∀ op, i ≠ .xxx op) → execWith p i s = exec i s

/-- Every step of every state completes, for every parameter record, and so does any number of steps of the machine
(R72, R209), under the opcode map of R61
(log 7), which reaches no unlisted mode (D18). -/
def Obligations.EveryStepCompletes : Prop :=
  (∀ s : State, s.Completes) ∧
  (∀ (p : Params) (s : State), ∃ t, stepWith p s = .next t) ∧
  ∀ (n : Nat) (s : State), ∃ t : State, Host.Core.run Sys2Proof.core n s = .next t

/-- An instruction that transfers no control leaves PC at the address after its last operand byte (R73). -/
def Obligations.SequentialPcIsAfterTheOperands : Prop :=
  ∀ (i : Instr) (s t : State), i.wf = true → i.transfersControl = false → exec i s = .next t →
    t.pc = s.pc + BitVec.ofNat 16 (i.operandBytes params)

/-- An instruction leaves A, X, Y and S unchanged unless it is a listed writer of that register (R19, R20, R21). -/
def Obligations.RegistersChangeOnlyByTheirWriters : Prop :=
  ∀ (i : Instr) (s t : State), exec i s = .next t →
    (i.writesA = false → t.a = s.a) ∧ (i.writesX = false → t.x = s.x) ∧
    (i.writesY = false → t.y = s.y) ∧ (i.writesS = false → t.sp = s.sp)

/-- The table of R25, both columns: an instruction not listed as a writer of a flag leaves it unchanged, and one not
listed as a reader of it does the same whatever the flag holds. The writers of Z and N from loads, PLA, shifts and
rotates are the spec's decisions D6 to D8 (logs 16, 19). -/
def Obligations.FlagsFollowTheirWritersAndReaders : Prop :=
  ∀ (i : Instr) (s t : State) (f : Flag), exec i s = .next t →
    (i.writesFlag f = false → t.flag f = s.flag f) ∧
    (i.readsFlag f = false → ∀ b,
      exec i (s.setFlag f b) = .next (if i.writesFlag f = true then t else t.setFlag f b))

/-- An instruction that makes no bus write leaves every byte of memory and the sound-chip trace unchanged
(R16, R33, R46). -/
def Obligations.NonStoringInstructionsLeaveMemory : Prop :=
  ∀ (i : Instr) (s t : State), i.writesBus = false → exec i s = .next t →
    (∀ b, t.memRead b = s.memRead b) ∧ t.snd = s.snd

/-- A store or a memory read-modify-write changes no byte of memory but the one at its operand's effective address,
and no register but PC and P (R89, R92, R107, R118). -/
def Obligations.StoringInstructionsChangeOnlyTheirByte : Prop :=
  ∀ (m : Mode) (s t u : State) (ea : Word) (i : Instr), eaFresh m s = some (ea, u) →
    i ∈ [.sta m, .stx m, .sty m, .asl m, .lsr m, .rol m, .ror m, .inc m, .dec m] → exec i s = .next t →
    (∀ b, b ≠ ea → t.memRead b = s.memRead b) ∧
    (0xD400 ≤ ea.toNat → ea.toNat ≤ 0xD7FF → ∀ b, t.memRead b = s.memRead b) ∧
    t.a = s.a ∧ t.x = s.x ∧ t.y = s.y ∧ t.sp = s.sp ∧ t.pc = u.pc ∧
    (i ∈ [.sta m, .stx m, .sty m] → t.p = s.p)

/-! ### Memory and the sound-chip window -/

/-- `MemWrite` (R35): in 0xD400..0xD7FF one event and nothing else, elsewhere one byte of memory and nothing else. -/
def Obligations.BusWriteStoresOrEmits : Prop :=
  ∀ (s : State) (addr : Word) (v : Byte),
    (0xD400 ≤ addr.toNat ∧ addr.toNat ≤ 0xD7FF →
      s.memWrite addr v = { s with snd := s.snd ++ [⟨BitVec.ofNat 5 (addr.toNat % 32), v⟩] }) ∧
    (addr.toNat < 0xD400 ∨ 0xD7FF < addr.toNat →
      (∃ m', s.memWrite addr v = { s with mem := m' }) ∧
      ∀ b, (s.memWrite addr v).memRead b = if b = addr then v else s.memRead b)

/-- Each of the 32 sound-chip registers appears at 32 aliases, 0xD400 + index + 32*k (R34, R190). -/
def Obligations.SoundRegisterAliases : Prop :=
  ∀ (s : State) (idx : BitVec 5) (k : Nat) (v : Byte), k < 32 →
    (s.memWrite (BitVec.ofNat 16 (0xD400 + idx.toNat + 32 * k)) v).snd = s.snd ++ [⟨idx, v⟩]

/-- The canonical form of memory holds right after reset (the model's representation, log 4 and 20). -/
def Obligations.ResetMemoryIsCanonical : Prop := State.reset.Inv

/-- Every step keeps the canonical form of memory, for every parameter record too (the model's representation,
log 20). -/
def Obligations.StepKeepsMemoryCanonical : Prop :=
  (∀ s t : State, s.Inv → step s = .next t → t.Inv) ∧
  ∀ (p : Params) (s t : State), s.Inv → stepWith p s = .next t → t.Inv

/-- Every host operation keeps the canonical form of memory (the model's representation, log 20). -/
def Obligations.HostOperationsKeepMemoryCanonical : Prop :=
  ∀ (p : Params) (op : HostOp) (s : State), s.Inv → (op.apply p s).Inv

/-- The backing bytes of the window are changed by no step, and by no host operation but the bulk ones, for every
parameter record (R37, R206). -/
def Obligations.WindowBytesChangeOnlyByBulkRequests : Prop :=
  ∀ (s : State) (addr : Word), 0xD400 ≤ addr.toNat → addr.toNat ≤ 0xD7FF →
    (∀ t, step s = .next t → t.memRead addr = s.memRead addr) ∧
    (∀ (p : Params) t, stepWith p s = .next t → t.memRead addr = s.memRead addr) ∧
    (∀ (p : Params) (op : HostOp), (∀ d bs, op ≠ .bulkCopy d bs) → (∀ d v n, op ≠ .bulkFill d v n) →
      (op.apply p s).memRead addr = s.memRead addr)

/-- The sound-chip trace only grows, by at most one event a step, for every parameter record too (R30, R36, R74). -/
def Obligations.StepAppendsAtMostOneEvent : Prop :=
  (∀ s t : State, step s = .next t → ∃ events, t.snd = s.snd ++ events ∧ events.length ≤ 1) ∧
  ∀ (p : Params) (s t : State), stepWith p s = .next t → ∃ events, t.snd = s.snd ++ events ∧ events.length ≤ 1

/-- Bulk requests, with `P_BULK_INTERCEPT` false (D12, log 5): the acceptance test on the unbounded sum, the bytes an accepted
request sets, in the window too, and nothing at all for a dropped one (R38, R39, R40, R41). -/
def Obligations.BulkRequestsStoreOrAreDropped : Prop :=
  ∀ (p : Params) (dest : Word) (s : State), p.bulkIntercept = false →
    (∀ bytes : List Byte,
      (dest.toNat + bytes.length ≤ 65535 →
        (∃ m', bulkCopy p dest bytes s = { s with mem := m' }) ∧
        ∀ b : Word, (bulkCopy p dest bytes s).memRead b =
          if dest.toNat ≤ b.toNat ∧ b.toNat < dest.toNat + bytes.length
          then bytes.getD (b.toNat - dest.toNat) 0 else s.memRead b) ∧
      (65536 ≤ dest.toNat + bytes.length → bulkCopy p dest bytes s = s)) ∧
    (∀ (v : Byte) (len : Nat),
      (dest.toNat + len ≤ 65535 →
        (∃ m', bulkFill p dest v len s = { s with mem := m' }) ∧
        ∀ b : Word, (bulkFill p dest v len s).memRead b =
          if dest.toNat ≤ b.toNat ∧ b.toNat < dest.toNat + len then v else s.memRead b) ∧
      (65536 ≤ dest.toNat + len → bulkFill p dest v len s = s))

/-- Bulk copy with `P_BULK_INTERCEPT` true (R41, D12, log 5): window bytes become events in ascending address order, the other
bytes are stored, and a dropped request does nothing. -/
def Obligations.InterceptedBulkCopyEmitsWindowBytes : Prop :=
  ∀ (p : Params) (dest : Word) (bytes : List Byte) (s : State), p.bulkIntercept = true →
    (dest.toNat + bytes.length ≤ 65535 →
      (∃ m', bulkCopy p dest bytes s = { s with mem := m', snd := s.snd ++ windowEvents dest.toNat bytes }) ∧
      ∀ b : Word, (bulkCopy p dest bytes s).memRead b =
        if (dest.toNat ≤ b.toNat ∧ b.toNat < dest.toNat + bytes.length) ∧ (b.toNat < 0xD400 ∨ 0xD7FF < b.toNat)
        then bytes.getD (b.toNat - dest.toNat) 0 else s.memRead b) ∧
    (65536 ≤ dest.toNat + bytes.length → bulkCopy p dest bytes s = s)

/-! ### Addressing -/

/-- The indexed absolute addresses and the zero-page address (R79, R80, R81). -/
def Obligations.IndexedAbsoluteAndZeroPageAddresses : Prop :=
  ∀ s : State,
    (∃ ea, eaFresh .absx s = some (ea, { s with pc := s.pc + 2 }) ∧
      ea.toNat = (wordAt s s.pc + s.x.toNat) % 65536) ∧
    (∃ ea, eaFresh .absy s = some (ea, { s with pc := s.pc + 2 }) ∧
      ea.toNat = (wordAt s s.pc + s.y.toNat) % 65536) ∧
    (∃ ea, eaFresh .zp s = some (ea, { s with pc := s.pc + 1 }) ∧ ea.toNat = (s.memRead s.pc).toNat)

/-- The absolute address, the indexed zero-page addresses with their 8-bit wrap, and the two indirect ones, whose
pointer's second byte wraps in page zero (R78, R82, R83, R84, R85): the spec's general knowledge (log 19). -/
def Obligations.WrappedZeroPageAndPointerAddresses : Prop :=
  ∀ s : State,
    (∃ ea, eaFresh .abs s = some (ea, { s with pc := s.pc + 2 }) ∧ ea.toNat = wordAt s s.pc) ∧
    (∃ ea, eaFresh .zpx s = some (ea, { s with pc := s.pc + 1 }) ∧
      ea.toNat = ((s.memRead s.pc).toNat + s.x.toNat) % 256) ∧
    (∃ ea, eaFresh .zpy s = some (ea, { s with pc := s.pc + 1 }) ∧
      ea.toNat = ((s.memRead s.pc).toNat + s.y.toNat) % 256) ∧
    (∃ ea, eaFresh .indx s = some (ea, { s with pc := s.pc + 1 }) ∧
      ea.toNat =
        (s.memRead (BitVec.ofNat 16 (((s.memRead s.pc).toNat + s.x.toNat) % 256))).toNat +
        256 * (s.memRead (BitVec.ofNat 16 (((s.memRead s.pc).toNat + s.x.toNat + 1) % 256))).toNat) ∧
    (∃ ea, eaFresh .indy s = some (ea, { s with pc := s.pc + 1 }) ∧
      ea.toNat =
        ((s.memRead (BitVec.ofNat 16 (s.memRead s.pc).toNat)).toNat +
         256 * (s.memRead (BitVec.ofNat 16 (((s.memRead s.pc).toNat + 1) % 256))).toNat + s.y.toNat) % 65536)

/-- `fetch_operand` in the modes it lists (R75, R76, R77, R86). -/
def Obligations.OperandsOfTheListedModes : Prop :=
  ∀ s : State,
    fetchOperand .imp s = some (0x00, s) ∧
    fetchOperand .imm s = some (s.memRead s.pc, { s with pc := s.pc + 1 }) ∧
    fetchOperand .acc s = some (s.a, s) ∧
    ∀ m ∈ [Mode.abs, .absx, .absy, .zp, .zpx, .zpy, .indx, .indy], ∃ ea,
      eaFresh m s = some (ea, { s with pc := nextPc m s }) ∧
      fetchOperand m s = some (s.memRead ea, { s with pc := nextPc m s })

/-- The refusals of R173 (b): a mode that `fetch_operand` or `store_fresh` does not list refuses the step under the
name of its own (R87, R93); so does JMP in a mode R136 has no case for (the model's choice, log 13). -/
def Obligations.UnlistedModesAreRefused : Prop :=
  (∀ m ∈ [Mode.ind, .rel], ∀ i ∈ [Instr.adc m, .sbc m, .and m, .ora m, .eor m, .bit m, .asl m, .lsr m, .rol m, .ror m,
      .cmp m, .cpx m, .cpy m, .inc m, .dec m, .lda m, .ldx m, .ldy m],
    ∀ s, exec i s = .refused (.fetchOperandMode m)) ∧
  (∀ m ∈ [Mode.imp, .imm, .ind, .acc, .rel], ∀ i ∈ [Instr.sta m, .stx m, .sty m],
    ∀ s, exec i s = .refused (.storeFreshMode m)) ∧
  (∀ m, m ≠ .abs → m ≠ .ind → ∀ s, exec (.jmp m) s = .refused (.jumpMode m))

/-- `store_to_last_operand` (R89, R90, R91): after the operand bytes are consumed it writes to the very address
`EA_fresh` gave, without moving PC; in accumulator mode it writes A; in every other mode it does nothing. -/
def Obligations.WriteBackHitsTheAddressJustRead : Prop :=
  ∀ (s : State) (v : Byte),
    (∀ m ∈ [Mode.abs, .absx, .zp, .zpx], ∃ ea t,
      eaFresh m s = some (ea, t) ∧ storeToLast m v t = t.memWrite ea v ∧ (storeToLast m v t).pc = t.pc) ∧
    storeToLast .acc v s = { s with a := v } ∧
    (∀ m ∈ [Mode.imp, .imm, .absy, .zpy, .ind, .indx, .indy, .rel], storeToLast m v s = s)

/-! ### The stack -/

/-- `Push` (R95). -/
def Obligations.PushStoresThenClamps : Prop :=
  ∀ (v : Byte) (s : State), Pushed v s (push v s)

/-- `Pop` (R96). -/
def Obligations.PopClampsThenReads : Prop :=
  ∀ s : State,
    pop s = (stackByte s (popped s.sp.toNat), { s with sp := BitVec.ofNat 8 (popped s.sp.toNat) })

/-- Any number of pushes: S stops at 0x00, and once it has, the last byte pushed is the one at 0x0100; no byte outside
the stack page changes and no event is emitted (R95, R97, R204). -/
def Obligations.RepeatedPushesClampAtTheStackBase : Prop :=
  ∀ (vs : List Byte) (s t : State), t = vs.foldl (fun u v => push v u) s →
    t.sp.toNat = s.sp.toNat - vs.length ∧
    (s.sp.toNat < vs.length → vs.getLast? = some (t.memRead 0x0100)) ∧
    (∀ b : Word, b.toNat < 0x0100 ∨ 0x01FF < b.toNat → t.memRead b = s.memRead b) ∧
    t.snd = s.snd

/-! ### Arithmetic, logic, shifts, compares

The opcode bytes of the rows, here and below, are those of the rules' "Encodings" lines; all but 0xA9, 0x00 and 0x60
are the spec's general knowledge (R61, D2, log 7). -/

/-- ADC (R101) on the adder of R98: the sum modulo 256, C iff it exceeds 255, V = C XOR N (R99). -/
def Obligations.AdcAddsWithCarry : Prop :=
  ReadsOperand .adc
    [(0x69, .imm), (0x65, .zp), (0x75, .zpx), (0x6D, .abs), (0x7D, .absx), (0x79, .absy), (0x61, .indx), (0x71, .indy)]
    fun v s t => ∃ p',
      t = { s with a := BitVec.ofNat 8 (s.a.toNat + v.toNat + (s.flag .c).toNat), p := p' } ∧
      FlagsWritten s.p p' (znvcOf ((s.a.toNat + v.toNat + (s.flag .c).toNat) % 256)
        (decide (255 < s.a.toNat + v.toNat + (s.flag .c).toNat)))

/-- SBC (R102): the complemented operand is added; C iff no borrow occurred. -/
def Obligations.SbcSubtractsWithBorrow : Prop :=
  ReadsOperand .sbc
    [(0xE9, .imm), (0xE5, .zp), (0xF5, .zpx), (0xED, .abs), (0xFD, .absx), (0xF9, .absy), (0xE1, .indx), (0xF1, .indy)]
    fun v s t => ∃ p',
      t = { s with a := BitVec.ofNat 8 (s.a.toNat + (255 - v.toNat) + (s.flag .c).toNat), p := p' } ∧
      FlagsWritten s.p p' (znvcOf ((s.a.toNat + (255 - v.toNat) + (s.flag .c).toNat) % 256)
        (decide (v.toNat + (1 - (s.flag .c).toNat) ≤ s.a.toNat)))

/-- AND, ORA and EOR (R103, R104, R105). -/
def Obligations.LogicalInstructionsCombineIntoA : Prop :=
  ReadsOperand .and
    [(0x29, .imm), (0x25, .zp), (0x35, .zpx), (0x2D, .abs), (0x3D, .absx), (0x39, .absy), (0x21, .indx), (0x31, .indy)]
    (fun v s t => ∃ p', t = { s with a := s.a &&& v, p := p' } ∧ FlagsWritten s.p p' (znOf (s.a &&& v).toNat)) ∧
  ReadsOperand .ora
    [(0x09, .imm), (0x05, .zp), (0x15, .zpx), (0x0D, .abs), (0x1D, .absx), (0x19, .absy), (0x01, .indx), (0x11, .indy)]
    (fun v s t => ∃ p', t = { s with a := s.a ||| v, p := p' } ∧ FlagsWritten s.p p' (znOf (s.a ||| v).toNat)) ∧
  ReadsOperand .eor
    [(0x49, .imm), (0x45, .zp), (0x55, .zpx), (0x4D, .abs), (0x5D, .absx), (0x59, .absy), (0x41, .indx), (0x51, .indy)]
    (fun v s t => ∃ p', t = { s with a := s.a ^^^ v, p := p' } ∧ FlagsWritten s.p p' (znOf (s.a ^^^ v).toNat))

/-- BIT (R106): Z from A and m, N and V from bits 7 and 6 of m alone, A kept. -/
def Obligations.BitTestsTheOperand : Prop :=
  ReadsOperand .bit [(0x24, .zp), (0x2C, .abs)]
    fun v s t => ∃ p', t = { s with p := p' } ∧
      FlagsWritten s.p p' fun f => match f with
        | .z => some (decide (s.a &&& v = 0x00))
        | .n => some (decide (128 ≤ v.toNat))
        | .v => some (decide (64 ≤ v.toNat % 128))
        | .u | .b | .d | .i | .c => none

/-- ASL (R107, R109), for every parameter record, and for the one the machine runs with (D7, log 2). -/
def Obligations.AslShiftsLeft : Prop :=
  (∀ p : Params, ModifiesOperand .asl (fun m => execWith p (.asl m))
    [(0x0A, .acc), (0x06, .zp), (0x16, .zpx), (0x0E, .abs), (0x1E, .absx)]
    (fun v _ => 2 * v.toNat % 256)
    (fun v _ f => match f with
      | .c => some (decide (128 ≤ v.toNat))
      | .n => some (decide (128 ≤ 2 * v.toNat % 256))
      | .z => some (match p.aslZ with
        | .result8 => decide (2 * v.toNat % 256 = 0)
        | .intermediate9 => decide (2 * v.toNat = 0))
      | .v | .u | .b | .d | .i => none)) ∧
  ∀ m s, exec (.asl m) s = execWith params (.asl m) s

/-- LSR, ROL and ROR (R107, R108, R110, R111, R112; Z and N are the spec's D7, log 19). -/
def Obligations.LsrRolRorShiftAndRotate : Prop :=
  ModifiesOperand .lsr (fun m => exec (.lsr m))
    [(0x4A, .acc), (0x46, .zp), (0x56, .zpx), (0x4E, .abs), (0x5E, .absx)]
    (fun v _ => v.toNat / 2)
    (fun v _ => zncOf (v.toNat / 2) (decide (v.toNat % 2 = 1))) ∧
  ModifiesOperand .rol (fun m => exec (.rol m))
    [(0x2A, .acc), (0x26, .zp), (0x36, .zpx), (0x2E, .abs), (0x3E, .absx)]
    (fun v c => (2 * v.toNat + c.toNat) % 256)
    (fun v c => zncOf ((2 * v.toNat + c.toNat) % 256) (decide (128 ≤ v.toNat))) ∧
  ModifiesOperand .ror (fun m => exec (.ror m))
    [(0x6A, .acc), (0x66, .zp), (0x76, .zpx), (0x6E, .abs), (0x7E, .absx)]
    (fun v c => v.toNat / 2 + 128 * c.toNat)
    (fun v c => zncOf (v.toNat / 2 + 128 * c.toNat) (decide (v.toNat % 2 = 1)))

/-- CMP, CPX and CPY (R113, R115, R116, R117): Z iff equal, C iff register >= operand, N bit 7 of the difference; no
register written, V kept. -/
def Obligations.ComparesSetFlagsOnly : Prop :=
  ReadsOperand .cmp
    [(0xC9, .imm), (0xC5, .zp), (0xD5, .zpx), (0xCD, .abs), (0xDD, .absx), (0xD9, .absy), (0xC1, .indx), (0xD1, .indy)]
    (fun v s t => ∃ p', t = { s with p := p' } ∧
      FlagsWritten s.p p' (zncOf ((s.a.toNat + 256 - v.toNat) % 256) (decide (v.toNat ≤ s.a.toNat)))) ∧
  ReadsOperand .cpx [(0xE0, .imm), (0xE4, .zp), (0xEC, .abs)]
    (fun v s t => ∃ p', t = { s with p := p' } ∧
      FlagsWritten s.p p' (zncOf ((s.x.toNat + 256 - v.toNat) % 256) (decide (v.toNat ≤ s.x.toNat)))) ∧
  ReadsOperand .cpy [(0xC0, .imm), (0xC4, .zp), (0xCC, .abs)]
    (fun v s t => ∃ p', t = { s with p := p' } ∧
      FlagsWritten s.p p' (zncOf ((s.y.toNat + 256 - v.toNat) % 256) (decide (v.toNat ≤ s.y.toNat))))

/-- INC and DEC (R118, R119, R120). -/
def Obligations.IncDecStepAMemoryByte : Prop :=
  ModifiesOperand .inc (fun m => exec (.inc m)) [(0xE6, .zp), (0xF6, .zpx), (0xEE, .abs), (0xFE, .absx)]
    (fun v _ => (v.toNat + 1) % 256) (fun v _ => znOf ((v.toNat + 1) % 256)) ∧
  ModifiesOperand .dec (fun m => exec (.dec m)) [(0xC6, .zp), (0xD6, .zpx), (0xCE, .abs), (0xDE, .absx)]
    (fun v _ => (v.toNat + 255) % 256) (fun v _ => znOf ((v.toNat + 255) % 256))

/-- INX, INY, DEX and DEY (R121, R122, R123, R124): the register wraps modulo 256. -/
def Obligations.IndexRegistersStepAndWrap : Prop :=
  Implied 0xE8 .inx (fun s t => ∃ p', t = { s with x := BitVec.ofNat 8 (s.x.toNat + 1), p := p' } ∧
    FlagsWritten s.p p' (znOf ((s.x.toNat + 1) % 256))) ∧
  Implied 0xC8 .iny (fun s t => ∃ p', t = { s with y := BitVec.ofNat 8 (s.y.toNat + 1), p := p' } ∧
    FlagsWritten s.p p' (znOf ((s.y.toNat + 1) % 256))) ∧
  Implied 0xCA .dex (fun s t => ∃ p', t = { s with x := BitVec.ofNat 8 (s.x.toNat + 255), p := p' } ∧
    FlagsWritten s.p p' (znOf ((s.x.toNat + 255) % 256))) ∧
  Implied 0x88 .dey (fun s t => ∃ p', t = { s with y := BitVec.ofNat 8 (s.y.toNat + 255), p := p' } ∧
    FlagsWritten s.p p' (znOf ((s.y.toNat + 255) % 256)))

/-! ### Control transfer -/

/-- The eight branches (R94, R127 to R135): the displacement, as a signed number, is added to the address after it if
the one flag the mnemonic tests has its value (D15, log 19); nothing but PC changes. -/
def Obligations.BranchesTestOneFlag : Prop :=
  ∀ op i f b, (op, i, f, b) ∈ ([(0x90, .bcc, .c, false), (0xB0, .bcs, .c, true), (0xD0, .bne, .z, false),
      (0xF0, .beq, .z, true), (0x10, .bpl, .n, false), (0x30, .bmi, .n, true), (0x50, .bvc, .v, false),
      (0x70, .bvs, .v, true)] : List (Byte × Instr × Flag × Bool)) →
    Implied op i fun s t =>
      t = { s with pc := BitVec.ofInt 16 ((s.pc.toNat : Int) + 1 +
        if s.flag f = b then (s.memRead s.pc).toInt else 0) }

/-- JMP (R136): to the operand, or to the pointer at the operand, whose second byte lies at the next address modulo
65536 (D14, log 19); nothing but PC changes. -/
def Obligations.JmpReplacesPc : Prop :=
  (∀ op m, decode op = .jmp m ↔ (op, m) ∈ ([(0x4C, .abs), (0x6C, .ind)] : List (Byte × Mode))) ∧
  ∀ s : State,
    exec (.jmp .abs) s = .next { s with pc := BitVec.ofNat 16 (wordAt s s.pc) } ∧
    exec (.jmp .ind) s = .next { s with pc := BitVec.ofNat 16 (wordAt s (BitVec.ofNat 16 (wordAt s s.pc))) }

/-- JSR (R137, D16, log 10): the address of its last byte is pushed, high byte first and clamped, then the operand is read,
from memory as the pushes left it. -/
def Obligations.JsrPushesThenReadsItsTarget : Prop :=
  Implied 0x20 .jsr fun s t =>
    (∃ m', t = { s with mem := m', sp := BitVec.ofNat 8 (s.sp.toNat - 2), pc := BitVec.ofNat 16 (wordAt t s.pc) }) ∧
    ∀ b : Word, t.memRead b =
      if b.toNat = 0x0100 + (s.sp.toNat - 1) then BitVec.ofNat 8 ((s.pc.toNat + 1) % 65536 % 256)
      else if b.toNat = 0x0100 + s.sp.toNat then BitVec.ofNat 8 ((s.pc.toNat + 1) % 65536 / 256)
      else s.memRead b

/-- RTS and RTI (R138, R139): two pops, low byte first, plus one; P is not restored and nothing else changes. -/
def Obligations.ReturnsPopPcPlusOne : Prop :=
  ∀ op i, (op, i) ∈ ([(0x60, .rts), (0x40, .rti)] : List (Byte × Instr)) →
    Implied op i fun s t =>
      t = { s with
        sp := BitVec.ofNat 8 (popped (popped s.sp.toNat))
        pc := BitVec.ofNat 16 ((stackByte s (popped s.sp.toNat)).toNat +
          256 * (stackByte s (popped (popped s.sp.toNat))).toNat + 1) }

/-- The call convention (R140): a return that finds S and the two stacked bytes as JSR left them goes to the
instruction after the JSR and puts S back; nothing else is restored. -/
def Obligations.ReturnGoesToTheInstructionAfterTheCall : Prop :=
  ∀ s t u : State, 2 ≤ s.sp.toNat → exec .jsr s = .next t → u.sp = t.sp →
    stackByte u s.sp.toNat = stackByte t s.sp.toNat →
    stackByte u (s.sp.toNat - 1) = stackByte t (s.sp.toNat - 1) →
    exec .rts u = .next { u with sp := s.sp, pc := s.pc + 2 } ∧
    exec .rti u = .next { u with sp := s.sp, pc := s.pc + 2 }

/-! ### Stack, flag and transfer instructions -/

/-- PHA (R142) and PHP (R143): A, or all eight bits of P as they are, pushed (D8, log 16). -/
def Obligations.PushInstructionsPushARegister : Prop :=
  Implied 0x48 .pha (fun s t => Pushed s.a s t) ∧ Implied 0x08 .php (fun s t => Pushed s.p s t)

/-- PLA (R144) and PLP (R145): A with Z and N, or all eight bits of P, pulled (D8, log 16). -/
def Obligations.PullInstructionsPullARegister : Prop :=
  Implied 0x68 .pla (fun s t => ∃ p',
    t = { s with sp := BitVec.ofNat 8 (popped s.sp.toNat), a := stackByte s (popped s.sp.toNat), p := p' } ∧
    FlagsWritten s.p p' (znOf (stackByte s (popped s.sp.toNat)).toNat)) ∧
  Implied 0x28 .plp (fun s t =>
    t = { s with sp := BitVec.ofNat 8 (popped s.sp.toNat), p := stackByte s (popped s.sp.toNat) })

/-- TSX (R146) and TXS (R147): TSX sets Z and N, TXS no flag. -/
def Obligations.StackPointerTransfers : Prop :=
  Implied 0xBA .tsx (fun s t => ∃ p', t = { s with x := s.sp, p := p' } ∧ FlagsWritten s.p p' (znOf s.sp.toNat)) ∧
  Implied 0x9A .txs (fun s t => t = { s with sp := s.x })

/-- CLC, SEC, CLD, SED, CLI, SEI and CLV (R148 to R155): each writes only its flag; which one is the spec's general
knowledge (log 7). -/
def Obligations.FlagInstructionsWriteOneFlag : Prop :=
  ∀ op i f b, (op, i, f, b) ∈ ([(0x18, .clc, .c, false), (0x38, .sec, .c, true), (0xD8, .cld, .d, false),
      (0xF8, .sed, .d, true), (0x58, .cli, .i, false), (0x78, .sei, .i, true),
      (0xB8, .clv, .v, false)] : List (Byte × Instr × Flag × Bool)) →
    Implied op i fun s t => ∃ p', t = { s with p := p' } ∧ FlagsWritten s.p p' (oneFlag f b)

/-- TAX, TAY, TXA and TYA (R156 to R160): the copy, Z and N. -/
def Obligations.TransfersCopyARegister : Prop :=
  Implied 0xAA .tax (fun s t => ∃ p', t = { s with x := s.a, p := p' } ∧ FlagsWritten s.p p' (znOf s.a.toNat)) ∧
  Implied 0xA8 .tay (fun s t => ∃ p', t = { s with y := s.a, p := p' } ∧ FlagsWritten s.p p' (znOf s.a.toNat)) ∧
  Implied 0x8A .txa (fun s t => ∃ p', t = { s with a := s.x, p := p' } ∧ FlagsWritten s.p p' (znOf s.x.toNat)) ∧
  Implied 0x98 .tya (fun s t => ∃ p', t = { s with a := s.y, p := p' } ∧ FlagsWritten s.p p' (znOf s.y.toNat))

/-! ### BRK, NOP, the placeholder, loads and stores -/

/-- BRK (R161): PC gets 0, and nothing is pushed, flagged or read. NOP (R162): nothing beyond the opcode fetch; its
opcode is the spec's general knowledge (log 7). -/
def Obligations.BrkClearsPcAndNopDoesNothing : Prop :=
  Implied 0x00 .brk (fun s t => t = { s with pc := 0x0000 }) ∧ Implied 0xEA .nop (fun s t => t = s)

/-- XXX (R63, R163): an undocumented opcode consumes `P_UNDOC_LEN(op)` operand bytes and does nothing else, for every
parameter record and for the one the machine runs with, whose lengths are those of R64 (the default of D3, log 1). -/
def Obligations.PlaceholdersOnlyConsumeTheirBytes : Prop :=
  ∀ op, undocumented op = true →
    (∀ k, decode k = .xxx op ↔ k = op) ∧
    (∀ (p : Params) (s : State),
      execWith p (.xxx op) s = .next { s with pc := s.pc + BitVec.ofNat 16 (p.undocLen op).val }) ∧
    (∀ s, exec (.xxx op) s = execWith params (.xxx op) s) ∧
    (op ∈ undocumentedNone → params.undocLen op = 0) ∧
    (op ∈ undocumentedOne → params.undocLen op = 1) ∧
    (op ∈ undocumentedTwo → params.undocLen op = 2)

/-- LDA, LDX and LDY (R164 to R167): the operand, Z and N (D6, log 19). -/
def Obligations.LoadsReadIntoARegister : Prop :=
  ReadsOperand .lda
    [(0xA9, .imm), (0xA5, .zp), (0xB5, .zpx), (0xAD, .abs), (0xBD, .absx), (0xB9, .absy), (0xA1, .indx), (0xB1, .indy)]
    (fun v s t => ∃ p', t = { s with a := v, p := p' } ∧ FlagsWritten s.p p' (znOf v.toNat)) ∧
  ReadsOperand .ldx [(0xA2, .imm), (0xA6, .zp), (0xB6, .zpy), (0xAE, .abs), (0xBE, .absy)]
    (fun v s t => ∃ p', t = { s with x := v, p := p' } ∧ FlagsWritten s.p p' (znOf v.toNat)) ∧
  ReadsOperand .ldy [(0xA0, .imm), (0xA4, .zp), (0xB4, .zpx), (0xAC, .abs), (0xBC, .absx)]
    (fun v s t => ∃ p', t = { s with y := v, p := p' } ∧ FlagsWritten s.p p' (znOf v.toNat))

/-- STA, STX and STY (R164, R168, R169, R170): one bus write of the register, no flag (D6, log 19). -/
def Obligations.StoresWriteARegister : Prop :=
  StoresRegister .sta
    [(0x85, .zp), (0x95, .zpx), (0x8D, .abs), (0x9D, .absx), (0x99, .absy), (0x81, .indx), (0x91, .indy)] (·.a) ∧
  StoresRegister .stx [(0x86, .zp), (0x96, .zpy), (0x8E, .abs)] (·.x) ∧
  StoresRegister .sty [(0x84, .zp), (0x94, .zpx), (0x8C, .abs)] (·.y)

/-! ### Reset, the driver and the host -/

/-- The two reset operations (R194, R195), and the state the model starts from (R32, R196): the values are the spec's
decisions D9, D10 and D11 (logs 3, 4, 6). -/
def Obligations.ResetOperationsSetTheRegisters : Prop :=
  (∀ (p : Params) (s : State),
    hostReset p s =
      { a := 0x00, x := 0x00, y := 0x00, sp := 0xFF, p := 0x00, pc := p.resetPc, mem := s.mem, snd := s.snd }) ∧
  (∀ (pc : Word) (a : Byte) (s : State),
    resetTo pc a s = { a := a, x := 0x00, y := 0x00, sp := 0xFF, p := 0x00, pc := pc, mem := s.mem, snd := s.snd }) ∧
  State.reset = powerUp params ∧ State.reset.pc = 0x0000 ∧ State.reset.snd = [] ∧
  ∀ b, State.reset.memRead b = 0x00

/-- The discovery of the play address (R200, D29, log 19). -/
def Obligations.PlayAddressIsTheLittleEndianVector : Prop :=
  ∀ s : State, (playAddress 0x0000 s).toNat = wordAt s 0x0314 ∧ ∀ a, a ≠ 0x0000 → playAddress a s = a

/-- The start of a run (R180, R181): the registers, and the sentinel 0x0000 at 0x01FE..0x01FF. -/
def Obligations.RunStartsWithTheSentinel : Prop :=
  ∀ (entry : Word) (seed : Byte) (s : State),
    (∃ m', enterRun entry seed s =
      { a := seed, x := 0x00, y := 0x00, sp := 0xFD, p := 0x00, pc := entry, mem := m', snd := s.snd }) ∧
    ∀ b : Word, (enterRun entry seed s).memRead b = if b = 0x01FF ∨ b = 0x01FE then 0x00 else s.memRead b

/-- The driver (R180, R182, R193; D28, log 19): idle, the block does nothing; in a run, it ends the run where PC <= 1 and otherwise
makes exactly one step, for every parameter record and so for the machine's. -/
def Obligations.DriverTestsPcBeforeEveryStep : Prop :=
  ∀ (p : Params) (s : State),
    Block.turn p ⟨s, .idle⟩ = .next ⟨s, .idle⟩ ∧
    (s.pc.toNat ≤ 1 → Block.turn p ⟨s, .running⟩ = .next ⟨s, .idle⟩) ∧
    (1 < s.pc.toNat → ∃ t, stepWith p s = .next t ∧ Block.turn p ⟨s, .running⟩ = .next ⟨t, .running⟩) ∧
    (1 < s.pc.toNat → ∃ t, step s = .next t ∧ Block.turn params ⟨s, .running⟩ = .next ⟨t, .running⟩)

/-- The host (R42, R185, R186; D13, D21, logs 11, 19): no operation has a move during a run; between runs each has its effect, and only
`read_byte` replies and only `run_subroutine` starts a run. -/
def Obligations.HostOperationsRunOnlyBetweenRuns : Prop :=
  ∀ (p : Params) (s : State),
    (∀ op, Block.call p op ⟨s, .running⟩ = none) ∧
    Block.call p .reset ⟨s, .idle⟩ = some (none, ⟨hostReset p s, .idle⟩) ∧
    (∀ pc a, Block.call p (.resetTo pc a) ⟨s, .idle⟩ = some (none, ⟨resetTo pc a s, .idle⟩)) ∧
    (∀ pc a, Block.call p (.runSubroutine pc a) ⟨s, .idle⟩ = some (none, ⟨enterRun pc a s, .running⟩)) ∧
    (∀ addr, Block.call p (.readByte addr) ⟨s, .idle⟩ = some (some (s.memRead addr), ⟨s, .idle⟩)) ∧
    (∀ addr v, Block.call p (.writeByte addr v) ⟨s, .idle⟩ = some (none, ⟨s.memWrite addr v, .idle⟩)) ∧
    (∀ d bs, Block.call p (.bulkCopy d bs) ⟨s, .idle⟩ = some (none, ⟨bulkCopy p d bs s, .idle⟩)) ∧
    (∀ d v n, Block.call p (.bulkFill d v n) ⟨s, .idle⟩ = some (none, ⟨bulkFill p d v n s, .idle⟩))

/-- Scenarios 2 and 3 and an entry at a stop value (R161, R181, R182): a run entered at an RTS or RTI ends after one
step at 0x0001 with S = 0xFF, one entered at a BRK ends after one step at 0x0000, and one entered at 0x0000 or 0x0001
ends at once, for every parameter record. -/
def Obligations.ReturnAndBreakEndARun : Prop :=
  ∀ (p : Params) (entry : Word) (seed : Byte) (s u : State), u = enterRun entry seed s →
    (entry.toNat ≤ 1 → ∀ n, runLoop p n u = .ended u) ∧
    (1 < entry.toNat → u.memRead entry = 0x60 ∨ u.memRead entry = 0x40 →
      ∀ n, runLoop p (n + 1) u = .ended { u with sp := 0xFF, pc := 0x0001 }) ∧
    (1 < entry.toNat → u.memRead entry = 0x00 → ∀ n, runLoop p (n + 1) u = .ended { u with pc := 0x0000 })

/-- A run has at most one end, it is a state with PC <= 1, and the loop is never refused (R182, R183), for every
parameter record; the bound on the steps is the model's test aid (D25, log 18). -/
def Obligations.ARunHasAtMostOneEnd : Prop :=
  ∀ (p : Params) (entry : Word) (seed : Byte) (s : State),
    (∀ t u, RunEnds p entry seed s t → RunEnds p entry seed s u → t = u) ∧
    (∀ t, RunEnds p entry seed s t → t.pc.toNat ≤ 1) ∧
    (∀ n r, runLoop p n (enterRun entry seed s) ≠ .refused r)

/-- A routine that jumps to itself hangs the run: no number of steps reaches an end, for every parameter
record (R184, R203; D25, log 18). -/
def Obligations.AJumpToItselfNeverEnds : Prop :=
  ∀ (p : Params) (s : State), 1 < s.pc.toNat → s.memRead s.pc = 0x4C → wordAt s (s.pc + 1) = s.pc.toNat →
    ∀ n, runLoop p n s = .outOfFuel s
end

