-- ==== Sys2Proof/Laws/State.lean ====
section
/-! SUPPORT. One lemma per field per update of State, true by rfl, and what the flag and bus accessors read after
an update. -/

namespace Sys2Proof.Machine

@[simp] theorem State.setA_a (s : State) (v : Byte) : (s.setA v).a = v := rfl
@[simp] theorem State.setA_x (s : State) (v : Byte) : (s.setA v).x = s.x := rfl
@[simp] theorem State.setA_y (s : State) (v : Byte) : (s.setA v).y = s.y := rfl
@[simp] theorem State.setA_sp (s : State) (v : Byte) : (s.setA v).sp = s.sp := rfl
@[simp] theorem State.setA_p (s : State) (v : Byte) : (s.setA v).p = s.p := rfl
@[simp] theorem State.setA_pc (s : State) (v : Byte) : (s.setA v).pc = s.pc := rfl
@[simp] theorem State.setA_mem (s : State) (v : Byte) : (s.setA v).mem = s.mem := rfl
@[simp] theorem State.setA_snd (s : State) (v : Byte) : (s.setA v).snd = s.snd := rfl

@[simp] theorem State.setX_a (s : State) (v : Byte) : (s.setX v).a = s.a := rfl
@[simp] theorem State.setX_x (s : State) (v : Byte) : (s.setX v).x = v := rfl
@[simp] theorem State.setX_y (s : State) (v : Byte) : (s.setX v).y = s.y := rfl
@[simp] theorem State.setX_sp (s : State) (v : Byte) : (s.setX v).sp = s.sp := rfl
@[simp] theorem State.setX_p (s : State) (v : Byte) : (s.setX v).p = s.p := rfl
@[simp] theorem State.setX_pc (s : State) (v : Byte) : (s.setX v).pc = s.pc := rfl
@[simp] theorem State.setX_mem (s : State) (v : Byte) : (s.setX v).mem = s.mem := rfl
@[simp] theorem State.setX_snd (s : State) (v : Byte) : (s.setX v).snd = s.snd := rfl

@[simp] theorem State.setY_a (s : State) (v : Byte) : (s.setY v).a = s.a := rfl
@[simp] theorem State.setY_x (s : State) (v : Byte) : (s.setY v).x = s.x := rfl
@[simp] theorem State.setY_y (s : State) (v : Byte) : (s.setY v).y = v := rfl
@[simp] theorem State.setY_sp (s : State) (v : Byte) : (s.setY v).sp = s.sp := rfl
@[simp] theorem State.setY_p (s : State) (v : Byte) : (s.setY v).p = s.p := rfl
@[simp] theorem State.setY_pc (s : State) (v : Byte) : (s.setY v).pc = s.pc := rfl
@[simp] theorem State.setY_mem (s : State) (v : Byte) : (s.setY v).mem = s.mem := rfl
@[simp] theorem State.setY_snd (s : State) (v : Byte) : (s.setY v).snd = s.snd := rfl

@[simp] theorem State.setSp_a (s : State) (v : Byte) : (s.setSp v).a = s.a := rfl
@[simp] theorem State.setSp_x (s : State) (v : Byte) : (s.setSp v).x = s.x := rfl
@[simp] theorem State.setSp_y (s : State) (v : Byte) : (s.setSp v).y = s.y := rfl
@[simp] theorem State.setSp_sp (s : State) (v : Byte) : (s.setSp v).sp = v := rfl
@[simp] theorem State.setSp_p (s : State) (v : Byte) : (s.setSp v).p = s.p := rfl
@[simp] theorem State.setSp_pc (s : State) (v : Byte) : (s.setSp v).pc = s.pc := rfl
@[simp] theorem State.setSp_mem (s : State) (v : Byte) : (s.setSp v).mem = s.mem := rfl
@[simp] theorem State.setSp_snd (s : State) (v : Byte) : (s.setSp v).snd = s.snd := rfl

@[simp] theorem State.setP_a (s : State) (v : Byte) : (s.setP v).a = s.a := rfl
@[simp] theorem State.setP_x (s : State) (v : Byte) : (s.setP v).x = s.x := rfl
@[simp] theorem State.setP_y (s : State) (v : Byte) : (s.setP v).y = s.y := rfl
@[simp] theorem State.setP_sp (s : State) (v : Byte) : (s.setP v).sp = s.sp := rfl
@[simp] theorem State.setP_p (s : State) (v : Byte) : (s.setP v).p = v := rfl
@[simp] theorem State.setP_pc (s : State) (v : Byte) : (s.setP v).pc = s.pc := rfl
@[simp] theorem State.setP_mem (s : State) (v : Byte) : (s.setP v).mem = s.mem := rfl
@[simp] theorem State.setP_snd (s : State) (v : Byte) : (s.setP v).snd = s.snd := rfl

@[simp] theorem State.setPc_a (s : State) (v : Word) : (s.setPc v).a = s.a := rfl
@[simp] theorem State.setPc_x (s : State) (v : Word) : (s.setPc v).x = s.x := rfl
@[simp] theorem State.setPc_y (s : State) (v : Word) : (s.setPc v).y = s.y := rfl
@[simp] theorem State.setPc_sp (s : State) (v : Word) : (s.setPc v).sp = s.sp := rfl
@[simp] theorem State.setPc_p (s : State) (v : Word) : (s.setPc v).p = s.p := rfl
@[simp] theorem State.setPc_pc (s : State) (v : Word) : (s.setPc v).pc = v := rfl
@[simp] theorem State.setPc_mem (s : State) (v : Word) : (s.setPc v).mem = s.mem := rfl
@[simp] theorem State.setPc_snd (s : State) (v : Word) : (s.setPc v).snd = s.snd := rfl

@[simp] theorem State.setMem_a (s : State) (v : Memory) : (s.setMem v).a = s.a := rfl
@[simp] theorem State.setMem_x (s : State) (v : Memory) : (s.setMem v).x = s.x := rfl
@[simp] theorem State.setMem_y (s : State) (v : Memory) : (s.setMem v).y = s.y := rfl
@[simp] theorem State.setMem_sp (s : State) (v : Memory) : (s.setMem v).sp = s.sp := rfl
@[simp] theorem State.setMem_p (s : State) (v : Memory) : (s.setMem v).p = s.p := rfl
@[simp] theorem State.setMem_pc (s : State) (v : Memory) : (s.setMem v).pc = s.pc := rfl
@[simp] theorem State.setMem_mem (s : State) (v : Memory) : (s.setMem v).mem = v := rfl
@[simp] theorem State.setMem_snd (s : State) (v : Memory) : (s.setMem v).snd = s.snd := rfl

@[simp] theorem State.setSnd_a (s : State) (v : List SoundEvent) : (s.setSnd v).a = s.a := rfl
@[simp] theorem State.setSnd_x (s : State) (v : List SoundEvent) : (s.setSnd v).x = s.x := rfl
@[simp] theorem State.setSnd_y (s : State) (v : List SoundEvent) : (s.setSnd v).y = s.y := rfl
@[simp] theorem State.setSnd_sp (s : State) (v : List SoundEvent) : (s.setSnd v).sp = s.sp := rfl
@[simp] theorem State.setSnd_p (s : State) (v : List SoundEvent) : (s.setSnd v).p = s.p := rfl
@[simp] theorem State.setSnd_pc (s : State) (v : List SoundEvent) : (s.setSnd v).pc = s.pc := rfl
@[simp] theorem State.setSnd_mem (s : State) (v : List SoundEvent) : (s.setSnd v).mem = s.mem := rfl
@[simp] theorem State.setSnd_snd (s : State) (v : List SoundEvent) : (s.setSnd v).snd = v := rfl

@[simp] theorem State.setA_memRead (s : State) (v : Byte) (a : Word) : (s.setA v).memRead a = s.memRead a := rfl
@[simp] theorem State.setX_memRead (s : State) (v : Byte) (a : Word) : (s.setX v).memRead a = s.memRead a := rfl
@[simp] theorem State.setY_memRead (s : State) (v : Byte) (a : Word) : (s.setY v).memRead a = s.memRead a := rfl
@[simp] theorem State.setSp_memRead (s : State) (v : Byte) (a : Word) : (s.setSp v).memRead a = s.memRead a := rfl
@[simp] theorem State.setP_memRead (s : State) (v : Byte) (a : Word) : (s.setP v).memRead a = s.memRead a := rfl
@[simp] theorem State.setPc_memRead (s : State) (v : Word) (a : Word) : (s.setPc v).memRead a = s.memRead a := rfl
@[simp] theorem State.setSnd_memRead (s : State) (v : List SoundEvent) (a : Word) : (s.setSnd v).memRead a = s.memRead a := rfl

@[simp] theorem State.setA_flag (s : State) (v : Byte) (g : Flag) : (s.setA v).flag g = s.flag g := rfl
@[simp] theorem State.setX_flag (s : State) (v : Byte) (g : Flag) : (s.setX v).flag g = s.flag g := rfl
@[simp] theorem State.setY_flag (s : State) (v : Byte) (g : Flag) : (s.setY v).flag g = s.flag g := rfl
@[simp] theorem State.setSp_flag (s : State) (v : Byte) (g : Flag) : (s.setSp v).flag g = s.flag g := rfl
@[simp] theorem State.setPc_flag (s : State) (v : Word) (g : Flag) : (s.setPc v).flag g = s.flag g := rfl
@[simp] theorem State.setMem_flag (s : State) (v : Memory) (g : Flag) : (s.setMem v).flag g = s.flag g := rfl
@[simp] theorem State.setSnd_flag (s : State) (v : List SoundEvent) (g : Flag) : (s.setSnd v).flag g = s.flag g := rfl

@[simp] theorem State.setFlag_a (s : State) (f : Flag) (b : Bool) : (s.setFlag f b).a = s.a := rfl
@[simp] theorem State.setFlag_x (s : State) (f : Flag) (b : Bool) : (s.setFlag f b).x = s.x := rfl
@[simp] theorem State.setFlag_y (s : State) (f : Flag) (b : Bool) : (s.setFlag f b).y = s.y := rfl
@[simp] theorem State.setFlag_sp (s : State) (f : Flag) (b : Bool) : (s.setFlag f b).sp = s.sp := rfl
@[simp] theorem State.setFlag_pc (s : State) (f : Flag) (b : Bool) : (s.setFlag f b).pc = s.pc := rfl
@[simp] theorem State.setFlag_mem (s : State) (f : Flag) (b : Bool) : (s.setFlag f b).mem = s.mem := rfl
@[simp] theorem State.setFlag_snd (s : State) (f : Flag) (b : Bool) : (s.setFlag f b).snd = s.snd := rfl
@[simp] theorem State.setFlag_p (s : State) (f : Flag) (b : Bool) : (s.setFlag f b).p = putFlag s.p f b := rfl
@[simp] theorem State.setFlag_memRead (s : State) (f : Flag) (b : Bool) (a : Word) : (s.setFlag f b).memRead a = s.memRead a := rfl

@[simp] theorem setZN_a (v : Byte) (s : State) : (setZN v s).a = s.a := rfl
@[simp] theorem setZN_x (v : Byte) (s : State) : (setZN v s).x = s.x := rfl
@[simp] theorem setZN_y (v : Byte) (s : State) : (setZN v s).y = s.y := rfl
@[simp] theorem setZN_sp (v : Byte) (s : State) : (setZN v s).sp = s.sp := rfl
@[simp] theorem setZN_pc (v : Byte) (s : State) : (setZN v s).pc = s.pc := rfl
@[simp] theorem setZN_mem (v : Byte) (s : State) : (setZN v s).mem = s.mem := rfl
@[simp] theorem setZN_snd (v : Byte) (s : State) : (setZN v s).snd = s.snd := rfl
@[simp] theorem setZN_p (v : Byte) (s : State) : (setZN v s).p = putFlag (putFlag s.p .z (v == 0x00)) .n v.msb := rfl
@[simp] theorem setZN_memRead (v : Byte) (s : State) (a : Word) : (setZN v s).memRead a = s.memRead a := rfl

end Sys2Proof.Machine
end

