-- ==== Sys2Proof/Laws/Flags.lean ====
section
/-! SUPPORT. The flags of a status byte: reading after writing, and that a byte is its eight flags. -/

namespace Sys2Proof.Machine

theorem Flag.bit_lt (f : Flag) : f.bit < 8 := by cases f <;> decide

theorem Flag.bit_inj {f g : Flag} (h : f.bit = g.bit) : f = g := by
  revert h
  cases f <;> cases g <;> decide

/-- The whole of a flag write: its flag holds the value, every other flag its old one (R16). -/
@[simp] theorem getFlag_putFlag (p : Byte) (f g : Flag) (b : Bool) :
    getFlag (putFlag p f b) g = if g = f then b else getFlag p g := by
  have hg := g.bit_lt
  have hf := f.bit_lt
  have hbit : g = f ↔ g.bit = f.bit := ⟨fun h => h ▸ rfl, Flag.bit_inj⟩
  have one : (1#8 <<< f.bit).getLsbD g.bit = decide (g.bit = f.bit) := by
    cases f <;> cases g <;> decide
  unfold getFlag putFlag
  cases b <;> simp only [Bool.false_eq_true, if_true, if_false, BitVec.getLsbD_or, BitVec.getLsbD_and,
    BitVec.getLsbD_not, one, hg, decide_true, Bool.true_and, hbit] <;>
    by_cases h : g.bit = f.bit <;> simp [h]

/-- A status byte is its eight flags (R24). -/
theorem byte_ext_flags {p q : Byte} (h : ∀ f, getFlag p f = getFlag q f) : p = q := by
  apply BitVec.eq_of_getLsbD_eq
  intro i hi
  have hn := h .n; have hv := h .v; have hu := h .u; have hb := h .b
  have hd := h .d; have hI := h .i; have hz := h .z; have hc := h .c
  simp only [getFlag, Flag.bit] at hn hv hu hb hd hI hz hc
  interval_cases i <;> assumption

theorem State.flag_def (s : State) (f : Flag) : s.flag f = getFlag s.p f := rfl

@[simp] theorem State.flag_setFlag (s : State) (f g : Flag) (b : Bool) :
    (s.setFlag f b).flag g = if g = f then b else s.flag g := getFlag_putFlag ..

/-- Writes of two different flags commute. -/
theorem putFlag_comm (p : Byte) {f g : Flag} (h : f ≠ g) (b c : Bool) :
    putFlag (putFlag p f b) g c = putFlag (putFlag p g c) f b := by
  apply byte_ext_flags
  intro k
  simp only [getFlag_putFlag]
  split_ifs <;> first | rfl | simp_all

/-- A second write of the same flag is the one that stays. -/
@[simp] theorem putFlag_putFlag (p : Byte) (f : Flag) (b c : Bool) : putFlag (putFlag p f b) f c = putFlag p f c := by
  apply byte_ext_flags
  intro k
  simp only [getFlag_putFlag]
  split_ifs <;> rfl

end Sys2Proof.Machine
end

