-- ==== Sys2Proof/Laws/Memory.lean ====
section
/-! SUPPORT. The laws of the backing array: read after write, the frame of a write, and that a write keeps the
canonical form. The first two hold of every list of cells, canonical or not. -/

namespace Sys2Proof.Machine

theorem Memory.read_nil (a : Nat) : Memory.read [] a = Memory.unlisted := rfl

theorem Memory.read_cons (k : Nat) (v : Byte) (rest : Memory) (a : Nat) :
    Memory.read ((k, v) :: rest) a =
      if k < a then Memory.read rest a else if k = a then v else Memory.unlisted := rfl

/-- Cells not above `a` play no part in a read above `a`. -/
theorem Memory.read_dropWhile_above (m : Memory) {a b : Nat} (h : a < b) :
    Memory.read (m.dropWhile fun c => c.1 ≤ a) b = Memory.read m b := by
  induction m with
  | nil => rfl
  | cons c rest ih =>
    obtain ⟨k, v⟩ := c
    by_cases hk : k ≤ a
    · simp only [List.dropWhile_cons, hk, decide_true, if_true, ih, Memory.read_cons]
      rw [if_pos (by omega)]
    · simp [hk]

/-- Past the cells not above `a`, nothing is listed at or below `a`. -/
theorem Memory.read_dropWhile_below (m : Memory) {a b : Nat} (h : b ≤ a) :
    Memory.read (m.dropWhile fun c => c.1 ≤ a) b = Memory.unlisted := by
  induction m with
  | nil => rfl
  | cons c rest ih =>
    obtain ⟨k, v⟩ := c
    by_cases hk : k ≤ a
    · simp only [List.dropWhile_cons, hk, decide_true, if_true, ih]
    · simp only [List.dropWhile_cons, hk, decide_false, Bool.false_eq_true, if_false, Memory.read_cons]
      rw [if_neg (by omega), if_neg (by omega)]

/-- The whole of what a write does: the written address reads as the value, every other one as before. -/
theorem Memory.read_write (m : Memory) (a b : Nat) (v : Byte) :
    Memory.read (Memory.write m a v) b = if b = a then v else Memory.read m b := by
  induction m with
  | nil =>
    by_cases hv : v = Memory.unlisted
    · simp only [Memory.write, hv, if_true, Memory.read_nil, ite_self]
    · simp only [Memory.write, hv, if_false, Memory.read_cons, Memory.read_nil]
      split_ifs <;> first | rfl | omega
  | cons c rest ih =>
    obtain ⟨k, w⟩ := c
    by_cases hk : k < a
    · simp only [Memory.write, hk, if_true, Memory.read_cons, ih]
      split_ifs <;> first | rfl | omega
    · have above := @Memory.read_dropWhile_above ((k, w) :: rest) a b
      have below := @Memory.read_dropWhile_below ((k, w) :: rest) a b
      have low : b < a → Memory.read ((k, w) :: rest) b = Memory.unlisted := fun h => by
        rw [Memory.read_cons, if_neg (by omega), if_neg (by omega)]
      by_cases hv : v = Memory.unlisted
      · rw [Memory.write, if_neg hk, if_pos hv]
        rcases Nat.lt_trichotomy b a with h | h | h
        · rw [if_neg (by omega), low h, below (by omega)]
        · rw [if_pos h, below (by omega), hv]
        · rw [if_neg (by omega), above h]
      · rw [Memory.write, if_neg hk, if_neg hv, Memory.read_cons]
        rcases Nat.lt_trichotomy b a with h | h | h
        · rw [if_neg (by omega), if_neg (by omega), if_neg (by omega), low h]
        · rw [if_neg (by omega), if_pos h.symm, if_pos h]
        · rw [if_pos h, if_neg (by omega), above h]

theorem Memory.wf_nil : Memory.wf [] := by simp [Memory.wf]

theorem Memory.wf_cons {c : Host.Cell} {m : Memory} :
    Memory.wf (c :: m) ↔
      (∀ d ∈ m, c.1 < d.1) ∧ c.1 < 65536 ∧ c.2 ≠ Memory.unlisted ∧ Memory.wf m := by
  simp only [Memory.wf, List.pairwise_cons, List.mem_cons, forall_eq_or_imp]
  tauto

theorem Memory.wf_dropWhile {m : Memory} (h : Memory.wf m) (a : Nat) :
    Memory.wf (m.dropWhile fun c => c.1 ≤ a) ∧ ∀ d ∈ m.dropWhile (fun c => c.1 ≤ a), a < d.1 := by
  induction m with
  | nil => exact ⟨h, by simp⟩
  | cons c rest ih =>
    obtain ⟨hc, _, _, hr⟩ := Memory.wf_cons.mp h
    by_cases hk : c.1 ≤ a
    · simpa [List.dropWhile_cons, hk] using ih hr
    · simp only [List.dropWhile_cons, hk, decide_false, Bool.false_eq_true, if_false]
      refine ⟨h, fun d hd => ?_⟩
      rcases List.mem_cons.mp hd with rfl | hd
      · omega
      · have := hc d hd
        omega

/-- The cells of a written list are the written one and old ones. -/
theorem Memory.mem_write {m : Memory} {a : Nat} {v : Byte} {d : Host.Cell} (h : d ∈ Memory.write m a v) :
    d.1 = a ∨ d ∈ m := by
  induction m with
  | nil =>
    simp only [Memory.write] at h
    split_ifs at h <;> simp_all
  | cons c rest ih =>
    obtain ⟨k, w⟩ := c
    simp only [Memory.write] at h
    have drop : d ∈ ((k, w) :: rest).dropWhile (fun c => c.1 ≤ a) → d ∈ (k, w) :: rest := fun hd =>
      (List.dropWhile_sublist _).subset hd
    split_ifs at h
    · rcases List.mem_cons.mp h with rfl | h
      · exact .inr (List.mem_cons_self ..)
      · exact (ih h).imp id (List.mem_cons_of_mem _)
    · exact .inr (drop h)
    · rcases List.mem_cons.mp h with rfl | h
      · exact .inl rfl
      · exact .inr (drop h)

/-- A write in the address space keeps the canonical form. -/
theorem Memory.wf_write {m : Memory} {a : Nat} {v : Byte} (h : Memory.wf m) (ha : a < 65536) :
    Memory.wf (Memory.write m a v) := by
  induction m with
  | nil =>
    simp only [Memory.write]
    split_ifs with hv
    · exact h
    · exact Memory.wf_cons.mpr ⟨by simp, ha, hv, h⟩
  | cons c rest ih =>
    obtain ⟨k, w⟩ := c
    obtain ⟨hc, hb, hw, hr⟩ := Memory.wf_cons.mp h
    have drop := Memory.wf_dropWhile h a
    simp only [Memory.write]
    split_ifs with hk hv
    · refine Memory.wf_cons.mpr ⟨fun d hd => ?_, hb, hw, ih hr⟩
      rcases Memory.mem_write hd with h' | h'
      · exact h' ▸ hk
      · exact hc d h'
    · exact drop.1
    · exact Memory.wf_cons.mpr ⟨drop.2, ha, hv, drop.1⟩

end Sys2Proof.Machine
end

