-- ==== Sys2Proof/Laws/Ops.lean ====
section
/-! SUPPORT. What each shared operation does, said once: bits, bus, instruction stream and stack. -/

namespace Sys2Proof.Machine

/-! ### Bits -/

@[simp] theorem pair_toNat (hi lo : Byte) : (pair hi lo).toNat = hi.toNat * 256 + lo.toNat := by
  unfold pair
  rw [BitVec.toNat_append, ← Nat.shiftLeft_add_eq_or_of_lt lo.isLt, Nat.shiftLeft_eq]

@[simp] theorem zext16_toNat (v : Byte) : (zext16 v).toNat = v.toNat := by
  simp only [zext16, BitVec.toNat_setWidth]
  omega

@[simp] theorem hiByte_toNat (w : Word) : (hiByte w).toNat = w.toNat / 256 := by
  simp only [hiByte, BitVec.extractLsb'_toNat, Nat.shiftRight_eq_div_pow]
  omega

@[simp] theorem loByte_toNat (w : Word) : (loByte w).toNat = w.toNat % 256 := by
  simp [loByte, BitVec.extractLsb'_toNat]

@[simp] theorem pair_hiByte_loByte (w : Word) : pair (hiByte w) (loByte w) = w := by
  apply BitVec.eq_of_toNat_eq
  rw [pair_toNat, hiByte_toNat, loByte_toNat]
  omega

/-! ### The window -/

/-- The mask test of R34 as a range. -/
theorem inWindow_iff (a : Word) : inWindow a = true ↔ 0xD400 ≤ a.toNat ∧ a.toNat ≤ 0xD7FF := by
  have split : a.toNat &&& 0xFC00 = a.toNat / 1024 * 1024 := by
    apply Nat.eq_of_testBit_eq
    intro i
    have ha : a.toNat < 2 ^ 16 := a.isLt
    have mask : (0xFC00 : Nat) = (2 ^ 6 - 1) <<< 10 := by decide
    have shift : a.toNat / 1024 * 1024 = (a.toNat >>> 10) <<< 10 := by
      rw [Nat.shiftLeft_eq, Nat.shiftRight_eq_div_pow]
    rw [mask, shift, Nat.testBit_and, Nat.testBit_shiftLeft, Nat.testBit_shiftLeft, Nat.testBit_two_pow_sub_one,
      Nat.testBit_shiftRight]
    by_cases h : 10 ≤ i
    · rw [show 10 + (i - 10) = i by omega]
      by_cases h6 : i - 10 < 6
      · simp [h, h6]
      · have : a.toNat.testBit i = false :=
          Nat.testBit_lt_two_pow (lt_of_lt_of_le ha (Nat.pow_le_pow_right (by decide) (by omega)))
        simp [this]
    · simp [h]
  unfold inWindow
  rw [beq_iff_eq, ← BitVec.toNat_inj, BitVec.toNat_and]
  have : (0xFC00 : Word).toNat = 0xFC00 := rfl
  rw [this, split]
  have : (0xD400 : Word).toNat = 0xD400 := rfl
  rw [this]
  omega

theorem inWindow_eq_false_iff (a : Word) : inWindow a = false ↔ a.toNat < 0xD400 ∨ 0xD7FF < a.toNat := by
  rw [Bool.eq_false_iff, ne_eq, inWindow_iff]
  omega

@[simp] theorem soundIndex_toNat (a : Word) : (soundIndex a).toNat = a.toNat % 32 := by
  simp [soundIndex, BitVec.extractLsb'_toNat]

/-! ### The bus -/

@[simp] theorem State.poke_a (s : State) (k : Word) (v : Byte) : (s.poke k v).a = s.a := rfl
@[simp] theorem State.poke_x (s : State) (k : Word) (v : Byte) : (s.poke k v).x = s.x := rfl
@[simp] theorem State.poke_y (s : State) (k : Word) (v : Byte) : (s.poke k v).y = s.y := rfl
@[simp] theorem State.poke_sp (s : State) (k : Word) (v : Byte) : (s.poke k v).sp = s.sp := rfl
@[simp] theorem State.poke_p (s : State) (k : Word) (v : Byte) : (s.poke k v).p = s.p := rfl
@[simp] theorem State.poke_pc (s : State) (k : Word) (v : Byte) : (s.poke k v).pc = s.pc := rfl
@[simp] theorem State.poke_snd (s : State) (k : Word) (v : Byte) : (s.poke k v).snd = s.snd := rfl

@[simp] theorem State.memRead_poke (s : State) (k b : Word) (v : Byte) :
    (s.poke k v).memRead b = if b = k then v else s.memRead b := by
  unfold State.memRead State.poke
  rw [State.setMem_mem, Memory.read_write]
  simp only [BitVec.toNat_inj]

theorem State.poke_wf {s : State} (h : s.mem.wf) (k : Word) (v : Byte) : (s.poke k v).mem.wf :=
  Memory.wf_write h k.isLt

/-- The two cases of a bus write (R35). -/
theorem State.memWrite_cases (s : State) (k : Word) (v : Byte) :
    (inWindow k = true ∧ s.memWrite k v = s.setSnd (s.snd ++ [⟨soundIndex k, v⟩])) ∨
    (inWindow k = false ∧ s.memWrite k v = s.setMem (s.mem.write k.toNat v)) := by
  unfold State.memWrite State.soundWrite State.poke
  cases h : inWindow k <;> simp

@[simp] theorem State.memWrite_a (s : State) (k : Word) (v : Byte) : (s.memWrite k v).a = s.a := by
  rcases s.memWrite_cases k v with ⟨-, h⟩ | ⟨-, h⟩ <;> rw [h] <;> rfl
@[simp] theorem State.memWrite_x (s : State) (k : Word) (v : Byte) : (s.memWrite k v).x = s.x := by
  rcases s.memWrite_cases k v with ⟨-, h⟩ | ⟨-, h⟩ <;> rw [h] <;> rfl
@[simp] theorem State.memWrite_y (s : State) (k : Word) (v : Byte) : (s.memWrite k v).y = s.y := by
  rcases s.memWrite_cases k v with ⟨-, h⟩ | ⟨-, h⟩ <;> rw [h] <;> rfl
@[simp] theorem State.memWrite_sp (s : State) (k : Word) (v : Byte) : (s.memWrite k v).sp = s.sp := by
  rcases s.memWrite_cases k v with ⟨-, h⟩ | ⟨-, h⟩ <;> rw [h] <;> rfl
@[simp] theorem State.memWrite_p (s : State) (k : Word) (v : Byte) : (s.memWrite k v).p = s.p := by
  rcases s.memWrite_cases k v with ⟨-, h⟩ | ⟨-, h⟩ <;> rw [h] <;> rfl
@[simp] theorem State.memWrite_pc (s : State) (k : Word) (v : Byte) : (s.memWrite k v).pc = s.pc := by
  rcases s.memWrite_cases k v with ⟨-, h⟩ | ⟨-, h⟩ <;> rw [h] <;> rfl

/-- What memory reads as after a bus write: a window write changes nothing (R35, R37). -/
theorem State.memRead_memWrite (s : State) (k b : Word) (v : Byte) :
    (s.memWrite k v).memRead b = if b = k ∧ inWindow k = false then v else s.memRead b := by
  unfold State.memWrite
  cases h : inWindow k with
  | true => simp [State.soundWrite]
  | false => simp

/-- The events after a bus write (R35, R36). -/
theorem State.memWrite_snd (s : State) (k : Word) (v : Byte) :
    (s.memWrite k v).snd = s.snd ++ if inWindow k then [⟨soundIndex k, v⟩] else [] := by
  unfold State.memWrite
  cases h : inWindow k <;> simp [State.soundWrite]

theorem State.memWrite_wf {s : State} (h : s.mem.wf) (k : Word) (v : Byte) : (s.memWrite k v).mem.wf := by
  rcases s.memWrite_cases k v with ⟨-, h'⟩ | ⟨-, h'⟩ <;> rw [h']
  · exact h
  · exact Memory.wf_write h k.isLt

/-- A status write and a bus write commute. -/
theorem State.memWrite_setP (s : State) (k : Word) (v p : Byte) :
    (s.setP p).memWrite k v = (s.memWrite k v).setP p := by
  unfold State.memWrite
  cases inWindow k <;> rfl

/-! ### The instruction stream -/

@[simp] theorem fetch8_eq (s : State) : fetch8 s = (s.memRead s.pc, s.setPc (s.pc + 1)) := rfl

@[simp] theorem fetch16_eq (s : State) :
    fetch16 s = (pair (s.memRead (s.pc + 1)) (s.memRead s.pc), s.setPc (s.pc + 2)) := by
  simp only [fetch16, fetch8_eq, State.setPc_memRead, State.setPc_pc]
  rw [BitVec.add_assoc]
  rfl

/-! ### The stack -/

theorem stackAddr_toNat (sp : Byte) : (stackAddr sp).toNat = 256 + sp.toNat := by
  have := sp.isLt
  simp only [stackAddr, BitVec.toNat_add, zext16_toNat]
  have : (0x0100 : Word).toNat = 256 := rfl
  omega

/-- The stack page lies outside the window (R97). -/
@[simp] theorem inWindow_stackAddr (sp : Byte) : inWindow (stackAddr sp) = false := by
  rw [inWindow_eq_false_iff, stackAddr_toNat]
  have := sp.isLt
  omega

theorem stackAddr_inj {p q : Byte} : stackAddr p = stackAddr q ↔ p = q := by
  rw [← BitVec.toNat_inj, stackAddr_toNat, stackAddr_toNat, ← BitVec.toNat_inj]
  omega

/-- S after a push (R95). -/
def pushedSp (sp : Byte) : Byte := if sp = 0x00 then 0x00 else sp - 1

/-- S after a pop (R96). -/
def poppedSp (sp : Byte) : Byte := if sp = 0xFF then 0xFF else sp + 1

/-- The whole of a push (R95, R97): a plain store and the clamped move of S. -/
theorem push_eq (v : Byte) (s : State) :
    push v s = (s.poke (stackAddr s.sp) v).setSp (pushedSp s.sp) := by
  have store : s.memWrite (stackAddr s.sp) v = s.poke (stackAddr s.sp) v := by
    simp [State.memWrite]
  simp only [push, pushedSp, store]
  split_ifs with h
  · rw [← h]
    rfl
  · rfl

@[simp] theorem push_a (v : Byte) (s : State) : (push v s).a = s.a := by rw [push_eq]; rfl
@[simp] theorem push_x (v : Byte) (s : State) : (push v s).x = s.x := by rw [push_eq]; rfl
@[simp] theorem push_y (v : Byte) (s : State) : (push v s).y = s.y := by rw [push_eq]; rfl
@[simp] theorem push_p (v : Byte) (s : State) : (push v s).p = s.p := by rw [push_eq]; rfl
@[simp] theorem push_pc (v : Byte) (s : State) : (push v s).pc = s.pc := by rw [push_eq]; rfl
@[simp] theorem push_snd (v : Byte) (s : State) : (push v s).snd = s.snd := by rw [push_eq]; rfl
@[simp] theorem push_sp (v : Byte) (s : State) : (push v s).sp = pushedSp s.sp := by rw [push_eq]; rfl

/-- The whole of a pop (R96). -/
theorem pop_eq (s : State) :
    pop s = (s.memRead (stackAddr (poppedSp s.sp)), s.setSp (poppedSp s.sp)) := by
  simp only [pop, poppedSp]
  split_ifs with h
  · rw [← h]
    rfl
  · rfl

theorem pushedSp_toNat (sp : Byte) : (pushedSp sp).toNat = sp.toNat - 1 := by
  unfold pushedSp
  split_ifs with h
  · simp [h]
  · have : sp.toNat ≠ 0 := fun h' => h (BitVec.eq_of_toNat_eq h')
    have := sp.isLt
    rw [BitVec.toNat_sub]
    have : (1 : Byte).toNat = 1 := rfl
    omega

theorem poppedSp_toNat (sp : Byte) : (poppedSp sp).toNat = min 255 (sp.toNat + 1) := by
  unfold poppedSp
  split_ifs with h
  · simp [h]
  · have : sp.toNat ≠ 255 := fun h' => h (BitVec.eq_of_toNat_eq h')
    have := sp.isLt
    rw [BitVec.toNat_add]
    have : (1 : Byte).toNat = 1 := rfl
    omega

theorem push_wf {s : State} (h : s.mem.wf) (v : Byte) : (push v s).mem.wf := by
  rw [push_eq]
  exact s.poke_wf h _ _

/-- The return of RTS and RTI in full (R138). -/
theorem returnFromStack_eq (s : State) :
    returnFromStack s =
      (s.setSp (poppedSp (poppedSp s.sp))).setPc
        (pair (s.memRead (stackAddr (poppedSp (poppedSp s.sp)))) (s.memRead (stackAddr (poppedSp s.sp))) + 1) := by
  simp only [returnFromStack, pop_eq]
  rfl

end Sys2Proof.Machine
end

