-- ==== Sys2Proof/Laws/Alu.lean ====
section
/-! SUPPORT. What each computation of `alu_flags` gives, said once in numbers: the adder, the four shifts and
rotates, the compare, `setZN`. -/

namespace Sys2Proof.Machine

/-! ### Bits as numbers -/

/-- Bit 7 of a byte. -/
theorem bit7_eq (v : Byte) : v.getLsbD 7 = decide (128 ≤ v.toNat) := by
  have := v.isLt
  rw [BitVec.getLsbD, Nat.testBit_eq_decide_div_mod_eq, decide_eq_decide]
  omega

/-- Bit 6 of a byte. -/
theorem bit6_eq (v : Byte) : v.getLsbD 6 = decide (64 ≤ v.toNat % 128) := by
  have := v.isLt
  rw [BitVec.getLsbD, Nat.testBit_eq_decide_div_mod_eq, decide_eq_decide]
  omega

/-- Bit 0 of a byte. -/
theorem bit0_eq (v : Byte) : v.getLsbD 0 = decide (v.toNat % 2 = 1) := by
  rw [BitVec.getLsbD, Nat.testBit_eq_decide_div_mod_eq, decide_eq_decide]
  omega

/-- The test for the zero byte. -/
theorem isZero_eq (v : Byte) : (v == 0x00) = decide (v.toNat = 0) := by
  rw [Bool.eq_iff_iff, beq_iff_eq, decide_eq_true_iff, ← BitVec.toNat_inj]
  rfl

/-! ### setZN (R15) -/

theorem setZN_flags (v : Byte) (s : State) : FlagsWritten s.p (setZN v s).p (znOf v.toNat) := by
  intro f
  have hn : v.msb = decide (128 ≤ v.toNat) := BitVec.msb_eq_decide v
  cases f <;> simp [setZN, State.setFlag, znOf, hn, ← isZero_eq]

/-! ### The adder (R98) -/

theorem add8_r (a m : Byte) (cin : Bool) :
    (add8 a m cin).r = BitVec.ofNat 8 (a.toNat + m.toNat + cin.toNat) := by
  apply BitVec.eq_of_toNat_eq
  simp [add8]

theorem add8_c (a m : Byte) (cin : Bool) :
    (add8 a m cin).c = decide (255 < a.toNat + m.toNat + cin.toNat) := by
  have ha := a.isLt
  have hm := m.isLt
  have hc : cin.toNat ≤ 1 := Bool.toNat_le cin
  have sum : (zext16 a + zext16 m + (BitVec.ofBool cin).setWidth 16).toNat = a.toNat + m.toNat + cin.toNat := by
    simp
    omega
  simp only [add8, BitVec.getLsbD, sum]
  rw [Nat.testBit_eq_decide_div_mod_eq, decide_eq_decide]
  omega

theorem add8_n (a m : Byte) (cin : Bool) :
    (add8 a m cin).n = decide (128 ≤ (a.toNat + m.toNat + cin.toNat) % 256) := by
  have h : (add8 a m cin).n = (add8 a m cin).r.getLsbD 7 := rfl
  rw [h, add8_r, bit7_eq, BitVec.toNat_ofNat]

theorem add8_z (a m : Byte) (cin : Bool) :
    (add8 a m cin).z = decide ((a.toNat + m.toNat + cin.toNat) % 256 = 0) := by
  have h : (add8 a m cin).z = ((add8 a m cin).r == 0x00) := rfl
  rw [h, add8_r, isZero_eq, BitVec.toNat_ofNat]

theorem add8_v (a m : Byte) (cin : Bool) : (add8 a m cin).v = xor (add8 a m cin).c (add8 a m cin).n := rfl

theorem addToA_flags (m : Byte) (s : State) :
    FlagsWritten s.p (addToA m s).p (znvcOf ((s.a.toNat + m.toNat + (s.flag .c).toNat) % 256)
      (decide (255 < s.a.toNat + m.toNat + (s.flag .c).toNat))) := by
  intro f
  cases f <;> simp [addToA, State.setFlag, znvcOf, add8_c, add8_n, add8_z, add8_v]

/-- The operand SBC adds, as a number (R102). -/
theorem complement_toNat (v : Byte) : (v ^^^ 0xFF).toNat = 255 - v.toNat := by
  rw [show (0xFF : Byte) = BitVec.allOnes 8 from rfl, BitVec.xor_allOnes, BitVec.toNat_not]

/-! ### The shifts and rotates (R109 to R112) -/

theorem shiftLeft_r (asl : AslZ) (m : Byte) : (shiftLeft asl m).r = BitVec.ofNat 8 (2 * m.toNat % 256) := by
  have := m.isLt
  apply BitVec.eq_of_toNat_eq
  simp [shiftLeft, Nat.shiftLeft_eq]
  omega

theorem shiftLeft_c (asl : AslZ) (m : Byte) : (shiftLeft asl m).c = decide (128 ≤ m.toNat) := by
  have := m.isLt
  simp only [shiftLeft, BitVec.getLsbD, BitVec.toNat_shiftLeft, zext16_toNat]
  rw [Nat.testBit_eq_decide_div_mod_eq, Nat.shiftLeft_eq, decide_eq_decide]
  omega

theorem shiftLeft_z_result8 (m : Byte) : (shiftLeft .result8 m).z = decide (2 * m.toNat % 256 = 0) := by
  have h : (shiftLeft .result8 m).z = ((shiftLeft .result8 m).r == 0x00) := rfl
  rw [h, shiftLeft_r, isZero_eq, BitVec.toNat_ofNat, Nat.mod_mod]

theorem shiftLeft_z_intermediate9 (m : Byte) : (shiftLeft .intermediate9 m).z = decide (2 * m.toNat = 0) := by
  have := m.isLt
  have h : (shiftLeft .intermediate9 m).z = ((zext16 m <<< 1 : Word) == 0x0000) := rfl
  rw [h, Bool.eq_iff_iff, beq_iff_eq, decide_eq_true_iff, ← BitVec.toNat_inj, BitVec.toNat_shiftLeft, zext16_toNat,
    Nat.shiftLeft_eq]
  simp
  omega

theorem shiftRight_r (m : Byte) : (shiftRight m).r = BitVec.ofNat 8 (m.toNat / 2) := by
  have := m.isLt
  apply BitVec.eq_of_toNat_eq
  simp [shiftRight, Nat.shiftRight_eq_div_pow]
  omega

theorem shiftRight_c (m : Byte) : (shiftRight m).c = decide (m.toNat % 2 = 1) := bit0_eq m

theorem rotateLeft_r (m : Byte) (cin : Bool) :
    (rotateLeft m cin).r = BitVec.ofNat 8 ((2 * m.toNat + cin.toNat) % 256) := by
  revert m cin
  decide +kernel

theorem rotateLeft_c (m : Byte) (cin : Bool) : (rotateLeft m cin).c = decide (128 ≤ m.toNat) := bit7_eq m

theorem rotateRight_r (m : Byte) (cin : Bool) :
    (rotateRight m cin).r = BitVec.ofNat 8 (m.toNat / 2 + 128 * cin.toNat) := by
  revert m cin
  decide +kernel

theorem rotateRight_c (m : Byte) (cin : Bool) : (rotateRight m cin).c = decide (m.toNat % 2 = 1) := bit0_eq m

theorem shiftRight_z (m : Byte) : (shiftRight m).z = decide (m.toNat / 2 = 0) := by
  have := m.isLt
  have h : (shiftRight m).z = ((shiftRight m).r == 0x00) := rfl
  rw [h, shiftRight_r, isZero_eq, BitVec.toNat_ofNat, Nat.mod_eq_of_lt (by omega)]

theorem rotateLeft_z (m : Byte) (cin : Bool) :
    (rotateLeft m cin).z = decide ((2 * m.toNat + cin.toNat) % 256 = 0) := by
  have h : (rotateLeft m cin).z = ((rotateLeft m cin).r == 0x00) := rfl
  rw [h, rotateLeft_r, isZero_eq, BitVec.toNat_ofNat, Nat.mod_mod]

theorem rotateRight_z (m : Byte) (cin : Bool) :
    (rotateRight m cin).z = decide (m.toNat / 2 + 128 * cin.toNat = 0) := by
  have hm := m.isLt
  have hc : cin.toNat ≤ 1 := Bool.toNat_le cin
  have h : (rotateRight m cin).z = ((rotateRight m cin).r == 0x00) := rfl
  rw [h, rotateRight_r, isZero_eq, BitVec.toNat_ofNat, Nat.mod_eq_of_lt (by omega)]

/-- The flags of a shift or rotate (R107). -/
theorem shiftFlags_flags (q : Shifted) (s : State) :
    FlagsWritten s.p (shiftFlags q s).p fun f => match f with
      | .c => some q.c
      | .z => some q.z
      | .n => some (decide (128 ≤ q.r.toNat))
      | .v | .u | .b | .d | .i => none := by
  intro f
  rw [← bit7_eq]
  cases f <;> simp [shiftFlags, State.setFlag]

/-! ### The compare (R113) -/

theorem compareFlags_flags (r m : Byte) (s : State) :
    FlagsWritten s.p (compareFlags r m s).p
      (zncOf ((r.toNat + 256 - m.toNat) % 256) (decide (m.toNat ≤ r.toNat))) := by
  have hr := r.isLt
  have hm := m.isLt
  have diff : (zext16 r - zext16 m).toNat = (65536 - m.toNat + r.toNat) % 65536 := by
    rw [BitVec.toNat_sub, zext16_toNat, zext16_toNat]
  have hz : ((zext16 r - zext16 m : Word) == 0x0000) = decide ((r.toNat + 256 - m.toNat) % 256 = 0) := by
    rw [Bool.eq_iff_iff, beq_iff_eq, decide_eq_true_iff, ← BitVec.toNat_inj, diff]
    change _ = 0 ↔ _
    omega
  have hn : (zext16 r - zext16 m).getLsbD 7 = decide (128 ≤ (r.toNat + 256 - m.toNat) % 256) := by
    rw [BitVec.getLsbD, diff, Nat.testBit_eq_decide_div_mod_eq, decide_eq_decide]
    omega
  have hc : m.ule r = decide (m.toNat ≤ r.toNat) := rfl
  intro f
  cases f <;> simp only [compareFlags, State.setFlag, State.setP_p, getFlag_putFlag, zncOf, hz, hn, hc] <;> rfl

end Sys2Proof.Machine
end

