-- ==== Sys2Proof/Laws/Operands.lean ====
section
/-! SUPPORT. What the three resolver entry points and the shapes built on them do, said once. -/

namespace Sys2Proof

/-- The modes with an effective address (R78 to R85). -/
def Mode.hasEa : Mode → Bool
  | .abs | .absx | .absy | .zp | .zpx | .zpy | .indx | .indy => true
  | .imp | .imm | .ind | .acc | .rel => false

/-- The modes `store_to_last_operand` stores to memory in (R89). -/
def Mode.rewritesMemory : Mode → Bool
  | .abs | .absx | .zp | .zpx => true
  | .imp | .imm | .absy | .zpy | .ind | .indx | .indy | .acc | .rel => false

end Sys2Proof

namespace Sys2Proof.Machine

@[simp] theorem State.setPc_setPc (s : State) (v w : Word) : (s.setPc v).setPc w = s.setPc w := rfl

@[simp] theorem State.setPc_self (s : State) : s.setPc s.pc = s := rfl

/-- The effective address alone, as a function of the mode and of the state with PC at the first operand byte. -/
def eaOf (m : Mode) (s : State) : Word :=
  match m with
  | .abs => pair (s.memRead (s.pc + 1)) (s.memRead s.pc)
  | .absx => pair (s.memRead (s.pc + 1)) (s.memRead s.pc) + zext16 s.x
  | .absy => pair (s.memRead (s.pc + 1)) (s.memRead s.pc) + zext16 s.y
  | .zp => zext16 (s.memRead s.pc)
  | .zpx => zext16 (s.memRead s.pc + s.x)
  | .zpy => zext16 (s.memRead s.pc + s.y)
  | .indx => zeroPagePointer (s.memRead s.pc + s.x) s
  | .indy => zeroPagePointer (s.memRead s.pc) s + zext16 s.y
  | .imp | .imm | .ind | .acc | .rel => 0

/-- `EA_fresh` moves PC past the operand bytes and changes nothing else. -/
theorem eaFresh_eq {m : Mode} (h : m.hasEa = true) (s : State) :
    eaFresh m s = some (eaOf m s, s.setPc (nextPc m s)) := by
  cases m <;> first
    | exact absurd h (by decide)
    | (simp only [eaFresh, fetch8_eq, fetch16_eq]; rfl)

theorem eaFresh_none {m : Mode} (h : m.hasEa = false) (s : State) : eaFresh m s = none := by
  cases m <;> first
    | exact absurd h (by decide)
    | rfl

/-- The operand alone. -/
def operandOf (m : Mode) (s : State) : Byte :=
  match m with
  | .imm => s.memRead s.pc
  | .acc => s.a
  | .abs | .absx | .absy | .zp | .zpx | .zpy | .indx | .indy => s.memRead (eaOf m s)
  | .imp | .ind | .rel => 0

/-- `fetch_operand` moves PC past the operand bytes and changes nothing else (R88). -/
theorem fetchOperand_eq {m : Mode} (hi : m ≠ .ind) (hr : m ≠ .rel) (s : State) :
    fetchOperand m s = some (operandOf m s, s.setPc (nextPc m s)) := by
  cases m <;> first
    | exact absurd rfl hi
    | exact absurd rfl hr
    | (rw [fetchOperand, eaFresh_eq rfl]; rfl)
    | (simp [fetchOperand, operandOf, nextPc, Mode.operandBytes])

/-- An instruction that reads an operand, in a mode `fetch_operand` lists, completes. -/
theorem withOperand_eq {m : Mode} (hi : m ≠ .ind) (hr : m ≠ .rel) (s : State) (k : Byte → State → State) :
    withOperand m s k = .next (k (operandOf m s) (s.setPc (nextPc m s))) := by
  rw [withOperand, fetchOperand_eq hi hr]

/-- All an instruction that reads an operand can answer with a next state. -/
theorem withOperand_next {m : Mode} {s t : State} {k : Byte → State → State} (h : withOperand m s k = .next t) :
    m ≠ .ind ∧ m ≠ .rel ∧ t = k (operandOf m s) (s.setPc (nextPc m s)) := by
  have hi : m ≠ .ind := fun e => by subst e; cases h
  have hr : m ≠ .rel := fun e => by subst e; cases h
  rw [withOperand_eq hi hr] at h
  exact ⟨hi, hr, (Host.Outcome.next.inj h).symm⟩

/-- A store in a mode `store_fresh` lists completes. -/
theorem storeByte_eq {m : Mode} (h : m.hasEa = true) (v : Byte) (s : State) :
    storeByte m v s = .next ((s.setPc (nextPc m s)).memWrite (eaOf m s) v) := by
  rw [storeByte, storeFresh, eaFresh_eq h]
  rfl

/-- All a store can answer with a next state. -/
theorem storeByte_next {m : Mode} {v : Byte} {s t : State} (h : storeByte m v s = .next t) :
    m.hasEa = true ∧ t = (s.setPc (nextPc m s)).memWrite (eaOf m s) v := by
  cases hm : m.hasEa with
  | false =>
    rw [storeByte, storeFresh, eaFresh_none hm] at h
    cases h
  | true =>
    rw [storeByte_eq hm] at h
    exact ⟨rfl, (Host.Outcome.next.inj h).symm⟩

/-- After the operand bytes are consumed, the address computed again is the one just used (R91). -/
theorem eaLast_after_eaFresh {m : Mode} (h : m.rewritesMemory = true) (s : State) :
    eaLast m (s.setPc (nextPc m s)) = some (eaOf m s) := by
  have one : s.pc + 1 - 1 = s.pc := by bv_omega
  have two : s.pc + 2 - 1 = s.pc + 1 := by bv_omega
  have both : s.pc + 2 - 2 = s.pc := by bv_omega
  cases m <;> first
    | exact absurd h (by decide)
    | (simp only [eaLast, nextPc, Mode.operandBytes, State.setPc_pc, State.setPc_memRead, State.setPc_x]
       first
         | (rw [show s.pc + BitVec.ofNat 16 1 - 1 = s.pc from one]; rfl)
         | (rw [show s.pc + BitVec.ofNat 16 2 - 1 = s.pc + 1 from two,
              show s.pc + BitVec.ofNat 16 2 - 2 = s.pc from both]; rfl))

/-- What `store_to_last_operand` does in a mode it stores to memory in. -/
theorem storeToLast_mem {m : Mode} (h : m.rewritesMemory = true) (v : Byte) (s : State) :
    storeToLast m v (s.setPc (nextPc m s)) = (s.setPc (nextPc m s)).memWrite (eaOf m s) v := by
  have e := eaLast_after_eaFresh h s
  cases m <;> first
    | exact absurd h (by decide)
    | rw [storeToLast, e]

/-- What `store_to_last_operand` does in accumulator mode. -/
@[simp] theorem storeToLast_acc (v : Byte) (s : State) : storeToLast .acc v s = s.setA v := rfl

/-- `store_to_last_operand` is one of these in every mode (R89, R90). -/
theorem storeToLast_cases (m : Mode) (v : Byte) (s : State) :
    (m = .acc ∧ storeToLast m v s = s.setA v) ∨
    (∃ ea, eaLast m s = some ea ∧ storeToLast m v s = s.memWrite ea v) ∨
    (m ≠ .acc ∧ eaLast m s = none ∧ storeToLast m v s = s) := by
  cases m <;> first
    | exact .inl ⟨rfl, rfl⟩
    | exact .inr (.inl ⟨_, rfl, rfl⟩)
    | exact .inr (.inr ⟨by decide, rfl, rfl⟩)

/-- The branch in full (R94). -/
theorem branch_eq (cond : Bool) (s : State) :
    branch cond s =
      s.setPc (if cond then s.pc + 1 + sext16 (s.memRead s.pc) else s.pc + 1) := by
  cases cond <;> rfl

end Sys2Proof.Machine
end

