-- ==== Sys2Proof/Laws/Step.lean ====
section
/-! SUPPORT. The step in full, and what each meaning answers in the modes its rows have, in terms of `operandOf`,
`eaOf` and `nextPc`. -/

namespace Sys2Proof.Machine

/-- The step in full (R71). -/
theorem step_eq (s : State) : step s = exec (decode (s.memRead s.pc)) (s.setPc (s.pc + 1)) := rfl

/-- Discarding n bytes moves PC by n (R163). -/
theorem discardBytes_eq (n : Nat) (s : State) : discardBytes n s = s.setPc (s.pc + BitVec.ofNat 16 n) := by
  induction n generalizing s with
  | zero => simp [discardBytes]
  | succ n ih =>
    rw [discardBytes, ih, fetch8_eq]
    simp only [State.setPc_pc, State.setPc_setPc]
    congr 1
    bv_omega

/-- A shift or rotate in a memory mode: one write, to the address just read (R107). -/
theorem shiftOperand_mem {m : Mode} (h : m.rewritesMemory = true) (s : State) (f : Byte → Bool → Shifted) :
    shiftOperand m s f =
      .next (shiftFlags (f (s.memRead (eaOf m s)) (s.flag .c))
        ((s.setPc (nextPc m s)).memWrite (eaOf m s) (f (s.memRead (eaOf m s)) (s.flag .c)).r)) := by
  have hi : m ≠ .ind := fun e => by subst e; cases h
  have hr : m ≠ .rel := fun e => by subst e; cases h
  have op : operandOf m s = s.memRead (eaOf m s) := by
    cases m <;> first
      | exact absurd h (by decide)
      | rfl
  rw [shiftOperand, withOperand_eq hi hr, storeToLast_mem h, op]
  rfl

/-- A shift or rotate in accumulator mode (R107). -/
theorem shiftOperand_acc (s : State) (f : Byte → Bool → Shifted) :
    shiftOperand .acc s f = .next (shiftFlags (f s.a (s.flag .c)) (s.setA (f s.a (s.flag .c)).r)) := by
  rw [shiftOperand, withOperand_eq (by decide) (by decide)]
  simp [operandOf, nextPc, Mode.operandBytes]

/-- The operand of a mode with an effective address is the byte there. -/
theorem operandOf_hasEa {m : Mode} (h : m.hasEa = true) (s : State) : operandOf m s = s.memRead (eaOf m s) := by
  cases m <;> first
    | exact absurd h (by decide)
    | rfl

theorem Mode.hasEa_of_rewritesMemory {m : Mode} (h : m.rewritesMemory = true) : m.hasEa = true := by
  cases m <;> first
    | exact absurd h (by decide)
    | rfl

end Sys2Proof.Machine
end

