-- ==== Sys2Proof/Laws/Exec.lean ====
section
/-! SUPPORT. What an instruction answers, said once for any parameters: `after p i s` is the next state of each
instruction written without the outcome type, an instruction that answers a next state answers this one, and every
well-formed instruction does. -/

namespace Sys2Proof.Machine

/-- The next state of a read-modify-write instruction, given the byte written back and the flags' effect. -/
def afterModify (m : Mode) (r : Byte) (flags : State → State) (s : State) : State :=
  flags (storeToLast m r (s.setPc (nextPc m s)))

/-- The next state of each instruction, for any parameters. -/
def after (p : Params) (i : Instr) (s : State) : State :=
  match i with
  | .adc m => addToA (operandOf m s) (s.setPc (nextPc m s))
  | .sbc m => addToA (operandOf m s ^^^ 0xFF) (s.setPc (nextPc m s))
  | .and m => setZN (s.a &&& operandOf m s) ((s.setPc (nextPc m s)).setA (s.a &&& operandOf m s))
  | .ora m => setZN (s.a ||| operandOf m s) ((s.setPc (nextPc m s)).setA (s.a ||| operandOf m s))
  | .eor m => setZN (s.a ^^^ operandOf m s) ((s.setPc (nextPc m s)).setA (s.a ^^^ operandOf m s))
  | .bit m =>
    (((s.setPc (nextPc m s)).setFlag .z ((s.a &&& operandOf m s) == 0x00)).setFlag .n
      ((operandOf m s).getLsbD 7)).setFlag .v ((operandOf m s).getLsbD 6)
  | .asl m => afterModify m (shiftLeft p.aslZ (operandOf m s)).r (shiftFlags (shiftLeft p.aslZ (operandOf m s))) s
  | .lsr m => afterModify m (shiftRight (operandOf m s)).r (shiftFlags (shiftRight (operandOf m s))) s
  | .rol m => afterModify m (rotateLeft (operandOf m s) (s.flag .c)).r (shiftFlags (rotateLeft (operandOf m s) (s.flag .c))) s
  | .ror m => afterModify m (rotateRight (operandOf m s) (s.flag .c)).r (shiftFlags (rotateRight (operandOf m s) (s.flag .c))) s
  | .cmp m => compareFlags s.a (operandOf m s) (s.setPc (nextPc m s))
  | .cpx m => compareFlags s.x (operandOf m s) (s.setPc (nextPc m s))
  | .cpy m => compareFlags s.y (operandOf m s) (s.setPc (nextPc m s))
  | .inc m => afterModify m (operandOf m s + 1) (setZN (operandOf m s + 1)) s
  | .dec m => afterModify m (operandOf m s - 1) (setZN (operandOf m s - 1)) s
  | .inx => setZN (s.x + 1) (s.setX (s.x + 1))
  | .iny => setZN (s.y + 1) (s.setY (s.y + 1))
  | .dex => setZN (s.x - 1) (s.setX (s.x - 1))
  | .dey => setZN (s.y - 1) (s.setY (s.y - 1))
  | .bcc => branch (!s.flag .c) s
  | .bcs => branch (s.flag .c) s
  | .bne => branch (!s.flag .z) s
  | .beq => branch (s.flag .z) s
  | .bpl => branch (!s.flag .n) s
  | .bmi => branch (s.flag .n) s
  | .bvc => branch (!s.flag .v) s
  | .bvs => branch (s.flag .v) s
  | .jmp .ind =>
    s.setPc (pair (s.memRead (pair (s.memRead (s.pc + 1)) (s.memRead s.pc) + 1))
      (s.memRead (pair (s.memRead (s.pc + 1)) (s.memRead s.pc))))
  | .jmp _ => s.setPc (pair (s.memRead (s.pc + 1)) (s.memRead s.pc))
  | .jsr =>
    let pushed := push (loByte (s.pc + 1)) (push (hiByte (s.pc + 1)) s)
    pushed.setPc (pair (pushed.memRead (s.pc + 1)) (pushed.memRead s.pc))
  | .rts => returnFromStack s
  | .rti => returnFromStack s
  | .pha => push s.a s
  | .php => push s.p s
  | .pla => setZN (pop s).1 ((pop s).2.setA (pop s).1)
  | .plp => (pop s).2.setP (pop s).1
  | .tsx => setZN s.sp (s.setX s.sp)
  | .txs => s.setSp s.x
  | .clc => s.setFlag .c false
  | .sec => s.setFlag .c true
  | .cld => s.setFlag .d false
  | .sed => s.setFlag .d true
  | .cli => s.setFlag .i false
  | .sei => s.setFlag .i true
  | .clv => s.setFlag .v false
  | .tax => setZN s.a (s.setX s.a)
  | .tay => setZN s.a (s.setY s.a)
  | .txa => setZN s.x (s.setA s.x)
  | .tya => setZN s.y (s.setA s.y)
  | .brk => s.setPc 0x0000
  | .nop => s
  | .xxx op => s.setPc (s.pc + BitVec.ofNat 16 (p.undocLen op).val)
  | .lda m => setZN (operandOf m s) ((s.setPc (nextPc m s)).setA (operandOf m s))
  | .ldx m => setZN (operandOf m s) ((s.setPc (nextPc m s)).setX (operandOf m s))
  | .ldy m => setZN (operandOf m s) ((s.setPc (nextPc m s)).setY (operandOf m s))
  | .sta m => (s.setPc (nextPc m s)).memWrite (eaOf m s) s.a
  | .stx m => (s.setPc (nextPc m s)).memWrite (eaOf m s) s.x
  | .sty m => (s.setPc (nextPc m s)).memWrite (eaOf m s) s.y

/-- The modes in which each instruction answers a next state; outside them it is refused (R87, R93). -/
def runs : Instr → Bool
  | .adc m | .sbc m | .and m | .ora m | .eor m | .bit m | .asl m | .lsr m | .rol m | .ror m
  | .cmp m | .cpx m | .cpy m | .inc m | .dec m | .lda m | .ldx m | .ldy m => m != .ind && m != .rel
  | .sta m | .stx m | .sty m => m.hasEa
  | .jmp m => m == .abs || m == .ind
  | _ => true

/-- With the machine's parameters, the instructions are `exec`. -/
theorem execWith_params (i : Instr) (s : State) : execWith params i s = exec i s := by cases i <;> rfl

/-- With the machine's parameters, the step is `step`. -/
theorem stepWith_params (s : State) : stepWith params s = step s := execWith_params _ _

/-- The step in full, for any parameters (R71). -/
theorem stepWith_eq (p : Params) (s : State) :
    stepWith p s = execWith p (decode (s.memRead s.pc)) (s.setPc (s.pc + 1)) := rfl

/-- An instruction in a mode it runs in answers `after p i s`. -/
theorem execWith_eq_after (p : Params) (i : Instr) (s : State) (h : runs i = true) :
    execWith p i s = .next (after p i s) := by
  cases i
  case adc m | sbc m | and m | ora m | eor m | bit m | asl m | lsr m | rol m | ror m | cmp m | cpx m | cpy m | inc m
      | dec m | lda m | ldx m | ldy m =>
    simp only [runs, Bool.and_eq_true, bne_iff_ne, ne_eq] at h
    simp only [execWith, exec, execAdc, execSbc, execAnd, execOra, execEor, execBit, execAslWith, execLsr, execRol,
      execRor, shiftOperand, execCmp, execCpx, execCpy, execInc, execDec, execLda, execLdx, execLdy]
    rw [withOperand_eq h.1 h.2]
    rfl
  case sta m | stx m | sty m => exact storeByte_eq h _ s
  case jmp m =>
    cases m <;> first
      | exact absurd h (by decide)
      | (simp only [execWith, exec, execJmp, fetch16_eq]; rfl)
  case jsr =>
    simp only [execWith, exec, execJsr, fetch16_eq, after, push_eq]
    rfl
  case xxx op => exact congrArg _ (discardBytes_eq _ s)
  all_goals rfl

/-- An instruction outside those modes answers no next state. -/
theorem execWith_ne_next {p : Params} {i : Instr} {s t : State} (h : runs i = false) :
    execWith p i s ≠ .next t := by
  intro e
  cases i
  case adc m | sbc m | and m | ora m | eor m | bit m | asl m | lsr m | rol m | ror m | cmp m | cpx m | cpy m | inc m
      | dec m | lda m | ldx m | ldy m =>
    cases m <;> first
      | exact absurd h (by decide)
      | cases e
  case sta m | stx m | sty m =>
    cases m <;> first
      | exact absurd h (by decide)
      | cases e
  case jmp m =>
    cases m <;> first
      | exact absurd h (by decide)
      | cases e
  all_goals exact absurd h (by simp [runs])

/-- All an instruction can answer with a next state. -/
theorem execWith_next {p : Params} {i : Instr} {s t : State} (h : execWith p i s = .next t) :
    runs i = true ∧ t = after p i s := by
  cases hr : runs i with
  | false => exact absurd h (execWith_ne_next hr)
  | true =>
    rw [execWith_eq_after p i s hr] at h
    exact ⟨rfl, (Host.Outcome.next.inj h).symm⟩

/-- An instruction in a mode it runs in answers `after params i s`, with the machine's parameters. -/
theorem exec_eq_after (i : Instr) (s : State) (h : runs i = true) : exec i s = .next (after params i s) := by
  rw [← execWith_params, execWith_eq_after params i s h]

/-- All `exec` can answer with a next state. -/
theorem exec_next {i : Instr} {s t : State} (h : exec i s = .next t) : runs i = true ∧ t = after params i s := by
  rw [← execWith_params] at h
  exact execWith_next h

/-- Every instruction of the opcode map runs. -/
theorem runs_of_wf {i : Instr} (h : i.wf = true) : runs i = true := by
  cases i
  case adc m | sbc m | and m | ora m | eor m | bit m | asl m | lsr m | rol m | ror m | cmp m | cpx m | cpy m | inc m
      | dec m | lda m | ldx m | ldy m | sta m | stx m | sty m | jmp m =>
    cases m <;> first
      | exact absurd h (by decide)
      | rfl
  all_goals rfl

/-! ### What `after` leaves alone in the shapes it is built of -/

@[simp] theorem shiftFlags_a (q : Shifted) (s : State) : (shiftFlags q s).a = s.a := rfl
@[simp] theorem shiftFlags_x (q : Shifted) (s : State) : (shiftFlags q s).x = s.x := rfl
@[simp] theorem shiftFlags_y (q : Shifted) (s : State) : (shiftFlags q s).y = s.y := rfl
@[simp] theorem shiftFlags_sp (q : Shifted) (s : State) : (shiftFlags q s).sp = s.sp := rfl
@[simp] theorem shiftFlags_pc (q : Shifted) (s : State) : (shiftFlags q s).pc = s.pc := rfl
@[simp] theorem shiftFlags_mem (q : Shifted) (s : State) : (shiftFlags q s).mem = s.mem := rfl
@[simp] theorem shiftFlags_snd (q : Shifted) (s : State) : (shiftFlags q s).snd = s.snd := rfl
@[simp] theorem shiftFlags_p (q : Shifted) (s : State) :
    (shiftFlags q s).p = putFlag (putFlag (putFlag s.p .c q.c) .n (q.r.getLsbD 7)) .z q.z := rfl
@[simp] theorem shiftFlags_memRead (q : Shifted) (s : State) (a : Word) :
    (shiftFlags q s).memRead a = s.memRead a := rfl

@[simp] theorem addToA_x (m : Byte) (s : State) : (addToA m s).x = s.x := rfl
@[simp] theorem addToA_y (m : Byte) (s : State) : (addToA m s).y = s.y := rfl
@[simp] theorem addToA_sp (m : Byte) (s : State) : (addToA m s).sp = s.sp := rfl
@[simp] theorem addToA_pc (m : Byte) (s : State) : (addToA m s).pc = s.pc := rfl
@[simp] theorem addToA_mem (m : Byte) (s : State) : (addToA m s).mem = s.mem := rfl
@[simp] theorem addToA_snd (m : Byte) (s : State) : (addToA m s).snd = s.snd := rfl
@[simp] theorem addToA_a (m : Byte) (s : State) : (addToA m s).a = (add8 s.a m (s.flag .c)).r := rfl
@[simp] theorem addToA_memRead (m : Byte) (s : State) (a : Word) : (addToA m s).memRead a = s.memRead a := rfl

@[simp] theorem compareFlags_a (r m : Byte) (s : State) : (compareFlags r m s).a = s.a := rfl
@[simp] theorem compareFlags_x (r m : Byte) (s : State) : (compareFlags r m s).x = s.x := rfl
@[simp] theorem compareFlags_y (r m : Byte) (s : State) : (compareFlags r m s).y = s.y := rfl
@[simp] theorem compareFlags_sp (r m : Byte) (s : State) : (compareFlags r m s).sp = s.sp := rfl
@[simp] theorem compareFlags_pc (r m : Byte) (s : State) : (compareFlags r m s).pc = s.pc := rfl
@[simp] theorem compareFlags_mem (r m : Byte) (s : State) : (compareFlags r m s).mem = s.mem := rfl
@[simp] theorem compareFlags_snd (r m : Byte) (s : State) : (compareFlags r m s).snd = s.snd := rfl
@[simp] theorem compareFlags_memRead (r m : Byte) (s : State) (a : Word) : (compareFlags r m s).memRead a = s.memRead a := rfl

@[simp] theorem storeToLast_x (m : Mode) (v : Byte) (s : State) : (storeToLast m v s).x = s.x := by
  rcases storeToLast_cases m v s with ⟨-, e⟩ | ⟨_, -, e⟩ | ⟨-, -, e⟩ <;> simp [e]
@[simp] theorem storeToLast_y (m : Mode) (v : Byte) (s : State) : (storeToLast m v s).y = s.y := by
  rcases storeToLast_cases m v s with ⟨-, e⟩ | ⟨_, -, e⟩ | ⟨-, -, e⟩ <;> simp [e]
@[simp] theorem storeToLast_sp (m : Mode) (v : Byte) (s : State) : (storeToLast m v s).sp = s.sp := by
  rcases storeToLast_cases m v s with ⟨-, e⟩ | ⟨_, -, e⟩ | ⟨-, -, e⟩ <;> simp [e]
@[simp] theorem storeToLast_pc (m : Mode) (v : Byte) (s : State) : (storeToLast m v s).pc = s.pc := by
  rcases storeToLast_cases m v s with ⟨-, e⟩ | ⟨_, -, e⟩ | ⟨-, -, e⟩ <;> simp [e]
@[simp] theorem storeToLast_p (m : Mode) (v : Byte) (s : State) : (storeToLast m v s).p = s.p := by
  rcases storeToLast_cases m v s with ⟨-, e⟩ | ⟨_, -, e⟩ | ⟨-, -, e⟩ <;> simp [e]

/-- Outside accumulator mode A is kept. -/
theorem storeToLast_a {m : Mode} (h : m ≠ .acc) (v : Byte) (s : State) : (storeToLast m v s).a = s.a := by
  rcases storeToLast_cases m v s with ⟨e, -⟩ | ⟨_, -, e⟩ | ⟨-, -, e⟩
  · exact absurd e h
  · simp [e]
  · simp [e]

theorem storeToLast_wf (m : Mode) (v : Byte) {s : State} (h : s.mem.wf) : (storeToLast m v s).mem.wf := by
  rcases storeToLast_cases m v s with ⟨-, e⟩ | ⟨_, -, e⟩ | ⟨-, -, e⟩
  · simpa [e] using h
  · simpa [e] using State.memWrite_wf h _ _
  · simpa [e] using h

end Sys2Proof.Machine
end

