-- ==== Sys2Proof/Laws/Host.lean ====
section
/-! SUPPORT. What the bulk stores, the start of a run and the driver's loop do, said once. -/

namespace Sys2Proof.Machine

/-! ### Bytes placed at consecutive addresses -/

theorem next_toNat {addr : Word} (h : addr.toNat + 1 < 65536) : (addr + 1).toNat = addr.toNat + 1 := by
  rw [BitVec.toNat_add]
  exact Nat.mod_eq_of_lt h

/-- A byte sequence placed in `M` changes only `M`. -/
theorem State.pokeBytes_eq (s : State) (addr : Word) (bytes : List Byte) :
    ∃ m', s.pokeBytes addr bytes = { s with mem := m' } := by
  induction bytes generalizing s addr with
  | nil => exact ⟨s.mem, rfl⟩
  | cons v rest ih =>
    obtain ⟨m', h⟩ := ih (s.poke addr v) (addr + 1)
    exact ⟨m', h⟩

theorem State.pokeBytes_wf {s : State} (h : s.mem.wf) (addr : Word) (bytes : List Byte) :
    (s.pokeBytes addr bytes).mem.wf := by
  induction bytes generalizing s addr with
  | nil => exact h
  | cons v rest ih => exact ih (s.poke_wf h addr v) _

/-- What memory reads as after a byte sequence that ends within the address space is placed in `M`. -/
theorem State.memRead_pokeBytes (s : State) (addr : Word) (bytes : List Byte) (h : addr.toNat + bytes.length ≤ 65535)
    (b : Word) :
    (s.pokeBytes addr bytes).memRead b =
      if addr.toNat ≤ b.toNat ∧ b.toNat < addr.toNat + bytes.length
      then bytes.getD (b.toNat - addr.toNat) 0 else s.memRead b := by
  induction bytes generalizing s addr with
  | nil => rw [if_neg (by simp only [List.length_nil]; omega)]; rfl
  | cons v rest ih =>
    simp only [List.length_cons] at h
    have hn : (addr + 1).toNat = addr.toNat + 1 := next_toNat (by omega)
    rw [State.pokeBytes, ih (s.poke addr v) (addr + 1) (by omega), hn, State.memRead_poke]
    simp only [List.length_cons, ← BitVec.toNat_inj]
    by_cases e : b.toNat = addr.toNat
    · rw [if_neg (by omega), if_pos e, if_pos (by omega), e, Nat.sub_self]
      rfl
    · by_cases r : addr.toNat + 1 ≤ b.toNat ∧ b.toNat < addr.toNat + 1 + rest.length
      · rw [if_pos r, if_pos (by omega), show b.toNat - addr.toNat = b.toNat - (addr.toNat + 1) + 1 by omega]
        rfl
      · rw [if_neg r, if_neg e, if_neg (by omega)]

/-! ### Bytes sent through the bus to consecutive addresses -/

theorem State.memWriteBytes_wf {s : State} (h : s.mem.wf) (addr : Word) (bytes : List Byte) :
    (s.memWriteBytes addr bytes).mem.wf := by
  induction bytes generalizing s addr with
  | nil => exact h
  | cons v rest ih => exact ih (s.memWrite_wf h addr v) _

/-- A byte sequence sent through the bus changes `M` and appends the events of its window bytes. -/
theorem State.memWriteBytes_eq (s : State) (addr : Word) (bytes : List Byte)
    (h : addr.toNat + bytes.length ≤ 65535) :
    ∃ m', s.memWriteBytes addr bytes = { s with mem := m', snd := s.snd ++ windowEvents addr.toNat bytes } := by
  induction bytes generalizing s addr with
  | nil => exact ⟨s.mem, by simp [State.memWriteBytes, windowEvents]⟩
  | cons v rest ih =>
    simp only [List.length_cons] at h
    have hn : (addr + 1).toNat = addr.toNat + 1 := next_toNat (by omega)
    obtain ⟨m', e⟩ := ih (s.memWrite addr v) (addr + 1) (by omega)
    refine ⟨m', ?_⟩
    rw [State.memWriteBytes, e, hn, windowEvents]
    have index : soundIndex addr = BitVec.ofNat 5 (addr.toNat % 32) := by
      apply BitVec.eq_of_toNat_eq
      simp
    rcases s.memWrite_cases addr v with ⟨w, e'⟩ | ⟨w, e'⟩
    · rw [if_pos ((inWindow_iff _).mp w), e', index]
      simp [State.setSnd]
    · rw [if_neg (by rw [← inWindow_iff, w]; decide), e']
      rfl

/-- What memory reads as after a byte sequence is sent through the bus: window bytes are not stored. -/
theorem State.memRead_memWriteBytes (s : State) (addr : Word) (bytes : List Byte)
    (h : addr.toNat + bytes.length ≤ 65535) (b : Word) :
    (s.memWriteBytes addr bytes).memRead b =
      if (addr.toNat ≤ b.toNat ∧ b.toNat < addr.toNat + bytes.length) ∧ inWindow b = false
      then bytes.getD (b.toNat - addr.toNat) 0 else s.memRead b := by
  induction bytes generalizing s addr with
  | nil => rw [if_neg (by simp only [List.length_nil]; omega)]; rfl
  | cons v rest ih =>
    simp only [List.length_cons] at h
    have hn : (addr + 1).toNat = addr.toNat + 1 := next_toNat (by omega)
    rw [State.memWriteBytes, ih (s.memWrite addr v) (addr + 1) (by omega), hn, State.memRead_memWrite]
    simp only [List.length_cons]
    by_cases e : b = addr
    · subst e
      rw [if_neg (by omega)]
      by_cases w : inWindow b = false
      · rw [if_pos ⟨rfl, w⟩, if_pos ⟨by omega, w⟩, Nat.sub_self]
        rfl
      · rw [if_neg (fun c => w c.2), if_neg (fun c => w c.2)]
    · have e' : b.toNat ≠ addr.toNat := fun c => e (BitVec.eq_of_toNat_eq c)
      rw [if_neg (fun (c : b = addr ∧ inWindow addr = false) => e c.1)]
      by_cases r : (addr.toNat + 1 ≤ b.toNat ∧ b.toNat < addr.toNat + 1 + rest.length) ∧ inWindow b = false
      · rw [if_pos r, if_pos ⟨by omega, r.2⟩, show b.toNat - addr.toNat = b.toNat - (addr.toNat + 1) + 1 by omega]
        rfl
      · rw [if_neg r, if_neg (fun c => r ⟨by omega, c.2⟩)]

/-! ### Bulk requests (R38) -/

theorem bulkAccepted_iff (dest : Word) (len : Nat) : bulkAccepted dest len = true ↔ dest.toNat + len ≤ 65535 := by
  simp [bulkAccepted]

theorem bulkCopy_accepted {dest : Word} {bytes : List Byte} (h : dest.toNat + bytes.length ≤ 65535) (p : Params)
    (s : State) : bulkCopy p dest bytes s = bulkStore p dest bytes s := by
  rw [bulkCopy, if_pos ((bulkAccepted_iff _ _).mpr h)]

theorem bulkCopy_dropped {dest : Word} {bytes : List Byte} (h : 65536 ≤ dest.toNat + bytes.length) (p : Params)
    (s : State) : bulkCopy p dest bytes s = s := by
  rw [bulkCopy, if_neg (by rw [bulkAccepted_iff]; omega)]

theorem bulkFill_eq_bulkCopy (p : Params) (dest : Word) (v : Byte) (len : Nat) (s : State) :
    bulkFill p dest v len s = bulkCopy p dest (List.replicate len v) s := by
  rw [bulkFill, bulkCopy, List.length_replicate]

theorem bulkStore_wf {s : State} (h : s.mem.wf) (p : Params) (dest : Word) (bytes : List Byte) :
    (bulkStore p dest bytes s).mem.wf := by
  unfold bulkStore
  split_ifs
  · exact State.memWriteBytes_wf h _ _
  · exact State.pokeBytes_wf h _ _

/-! ### A push and a pop in full -/

/-- Memory after a push (R95). -/
theorem push_memRead (v : Byte) (s : State) (b : Word) :
    (push v s).memRead b = if b = stackAddr s.sp then v else s.memRead b := by
  rw [push_eq, State.setSp_memRead, State.memRead_poke]

/-- A push changes only `M` and S. -/
theorem push_only (v : Byte) (s : State) :
    ∃ m', push v s = { s with mem := m', sp := pushedSp s.sp } := ⟨_, push_eq v s⟩

/-- A stack address as a number (R95). -/
theorem eq_stackAddr_iff (b : Word) (sp : Byte) : b = stackAddr sp ↔ b.toNat = 0x0100 + sp.toNat := by
  rw [← BitVec.toNat_inj, stackAddr_toNat]

theorem stackByte_eq (s : State) (sp : Byte) : stackByte s sp.toNat = s.memRead (stackAddr sp) := rfl

/-- The start of a run in full: the sentinel stands at 0x01FE and 0x01FF (R180, R181). -/
theorem enterRun_eq (entry : Word) (seed : Byte) (s : State) :
    enterRun entry seed s =
      (((resetTo entry seed s).poke 0x01FF 0x00).poke 0x01FE 0x00).setSp 0xFD := by
  have sp0 : (resetTo entry seed s).sp = 0xFF := rfl
  have next : pushedSp 0xFF = 0xFE := by decide
  have last : pushedSp 0xFE = 0xFD := by decide
  have high : stackAddr 0xFF = 0x01FF := by decide
  have low : stackAddr 0xFE = 0x01FE := by decide
  simp only [enterRun, push_eq, State.setSp_sp, sp0, next, last, high, low]
  rfl

/-! ### The driver's loop (R180, R182) -/

theorem stopped_iff (s : State) : stopped s = true ↔ s.pc.toNat ≤ 1 := by simp [stopped]

theorem runLoop_stopped (p : Params) {s : State} (h : s.pc.toNat ≤ 1) (n : Nat) : runLoop p n s = .ended s := by
  cases n <;> rw [runLoop, if_pos ((stopped_iff s).mpr h)]

theorem runLoop_step {p : Params} {s t : State} (h : 1 < s.pc.toNat) (e : stepWith p s = .next t) (n : Nat) :
    runLoop p (n + 1) s = runLoop p n t := by
  rw [runLoop, if_neg (by rw [stopped_iff]; omega), e]

end Sys2Proof.Machine
end

