-- ==== Sys2Proof/Laws/PerInstr.lean ====
section
/-! SUPPORT. The per-instruction family OpcodeRoundTrip: the opcode byte that the rule of a well-formed instruction
gives it ("Encodings", R101 to R170) decodes, by the grid of R61, to that instruction. -/

namespace Sys2Proof.Laws.OpcodeRoundTrip

/-- What the family says of an instruction. -/
def Statement (i : Instr) : Prop :=
  i.wf = true → ∃ op, opcodeOf i = some op ∧ decode op = i

theorem undocumentedNone_decodes : ∀ op ∈ undocumentedNone, decode op = .xxx op := by decide

theorem undocumentedOne_decodes : ∀ op ∈ undocumentedOne, decode op = .xxx op := by decide

theorem undocumentedTwo_decodes : ∀ op ∈ undocumentedTwo, decode op = .xxx op := by decide

/-- Every opcode of R64 decodes to its placeholder (R63). -/
theorem undocumented_decodes (op : Byte) (h : undocumented op = true) : decode op = .xxx op := by
  simp only [undocumented, Bool.or_eq_true, List.contains_iff_mem] at h
  rcases h with (h | h) | h
  · exact undocumentedNone_decodes op h
  · exact undocumentedOne_decodes op h
  · exact undocumentedTwo_decodes op h

theorem adc (m : Mode) : Statement (.adc m) := by
  cases m <;> first
    | exact fun h => absurd h (by decide)
    | exact fun _ => ⟨_, rfl, rfl⟩
theorem sbc (m : Mode) : Statement (.sbc m) := by
  cases m <;> first
    | exact fun h => absurd h (by decide)
    | exact fun _ => ⟨_, rfl, rfl⟩
theorem and (m : Mode) : Statement (.and m) := by
  cases m <;> first
    | exact fun h => absurd h (by decide)
    | exact fun _ => ⟨_, rfl, rfl⟩
theorem ora (m : Mode) : Statement (.ora m) := by
  cases m <;> first
    | exact fun h => absurd h (by decide)
    | exact fun _ => ⟨_, rfl, rfl⟩
theorem eor (m : Mode) : Statement (.eor m) := by
  cases m <;> first
    | exact fun h => absurd h (by decide)
    | exact fun _ => ⟨_, rfl, rfl⟩
theorem bit (m : Mode) : Statement (.bit m) := by
  cases m <;> first
    | exact fun h => absurd h (by decide)
    | exact fun _ => ⟨_, rfl, rfl⟩
theorem asl (m : Mode) : Statement (.asl m) := by
  cases m <;> first
    | exact fun h => absurd h (by decide)
    | exact fun _ => ⟨_, rfl, rfl⟩
theorem lsr (m : Mode) : Statement (.lsr m) := by
  cases m <;> first
    | exact fun h => absurd h (by decide)
    | exact fun _ => ⟨_, rfl, rfl⟩
theorem rol (m : Mode) : Statement (.rol m) := by
  cases m <;> first
    | exact fun h => absurd h (by decide)
    | exact fun _ => ⟨_, rfl, rfl⟩
theorem ror (m : Mode) : Statement (.ror m) := by
  cases m <;> first
    | exact fun h => absurd h (by decide)
    | exact fun _ => ⟨_, rfl, rfl⟩
theorem cmp (m : Mode) : Statement (.cmp m) := by
  cases m <;> first
    | exact fun h => absurd h (by decide)
    | exact fun _ => ⟨_, rfl, rfl⟩
theorem cpx (m : Mode) : Statement (.cpx m) := by
  cases m <;> first
    | exact fun h => absurd h (by decide)
    | exact fun _ => ⟨_, rfl, rfl⟩
theorem cpy (m : Mode) : Statement (.cpy m) := by
  cases m <;> first
    | exact fun h => absurd h (by decide)
    | exact fun _ => ⟨_, rfl, rfl⟩
theorem inc (m : Mode) : Statement (.inc m) := by
  cases m <;> first
    | exact fun h => absurd h (by decide)
    | exact fun _ => ⟨_, rfl, rfl⟩
theorem dec (m : Mode) : Statement (.dec m) := by
  cases m <;> first
    | exact fun h => absurd h (by decide)
    | exact fun _ => ⟨_, rfl, rfl⟩
theorem inx : Statement .inx := fun _ => ⟨_, rfl, rfl⟩
theorem iny : Statement .iny := fun _ => ⟨_, rfl, rfl⟩
theorem dex : Statement .dex := fun _ => ⟨_, rfl, rfl⟩
theorem dey : Statement .dey := fun _ => ⟨_, rfl, rfl⟩
theorem bcc : Statement .bcc := fun _ => ⟨_, rfl, rfl⟩
theorem bcs : Statement .bcs := fun _ => ⟨_, rfl, rfl⟩
theorem bne : Statement .bne := fun _ => ⟨_, rfl, rfl⟩
theorem beq : Statement .beq := fun _ => ⟨_, rfl, rfl⟩
theorem bpl : Statement .bpl := fun _ => ⟨_, rfl, rfl⟩
theorem bmi : Statement .bmi := fun _ => ⟨_, rfl, rfl⟩
theorem bvc : Statement .bvc := fun _ => ⟨_, rfl, rfl⟩
theorem bvs : Statement .bvs := fun _ => ⟨_, rfl, rfl⟩
theorem jmp (m : Mode) : Statement (.jmp m) := by
  cases m <;> first
    | exact fun h => absurd h (by decide)
    | exact fun _ => ⟨_, rfl, rfl⟩
theorem jsr : Statement .jsr := fun _ => ⟨_, rfl, rfl⟩
theorem rts : Statement .rts := fun _ => ⟨_, rfl, rfl⟩
theorem rti : Statement .rti := fun _ => ⟨_, rfl, rfl⟩
theorem pha : Statement .pha := fun _ => ⟨_, rfl, rfl⟩
theorem php : Statement .php := fun _ => ⟨_, rfl, rfl⟩
theorem pla : Statement .pla := fun _ => ⟨_, rfl, rfl⟩
theorem plp : Statement .plp := fun _ => ⟨_, rfl, rfl⟩
theorem tsx : Statement .tsx := fun _ => ⟨_, rfl, rfl⟩
theorem txs : Statement .txs := fun _ => ⟨_, rfl, rfl⟩
theorem clc : Statement .clc := fun _ => ⟨_, rfl, rfl⟩
theorem sec : Statement .sec := fun _ => ⟨_, rfl, rfl⟩
theorem cld : Statement .cld := fun _ => ⟨_, rfl, rfl⟩
theorem sed : Statement .sed := fun _ => ⟨_, rfl, rfl⟩
theorem cli : Statement .cli := fun _ => ⟨_, rfl, rfl⟩
theorem sei : Statement .sei := fun _ => ⟨_, rfl, rfl⟩
theorem clv : Statement .clv := fun _ => ⟨_, rfl, rfl⟩
theorem tax : Statement .tax := fun _ => ⟨_, rfl, rfl⟩
theorem tay : Statement .tay := fun _ => ⟨_, rfl, rfl⟩
theorem txa : Statement .txa := fun _ => ⟨_, rfl, rfl⟩
theorem tya : Statement .tya := fun _ => ⟨_, rfl, rfl⟩
theorem brk : Statement .brk := fun _ => ⟨_, rfl, rfl⟩
theorem nop : Statement .nop := fun _ => ⟨_, rfl, rfl⟩
theorem xxx (op : Byte) : Statement (.xxx op) := fun h =>
  ⟨op, by rw [opcodeOf, if_pos (show undocumented op = true from h)], undocumented_decodes op h⟩
theorem lda (m : Mode) : Statement (.lda m) := by
  cases m <;> first
    | exact fun h => absurd h (by decide)
    | exact fun _ => ⟨_, rfl, rfl⟩
theorem ldx (m : Mode) : Statement (.ldx m) := by
  cases m <;> first
    | exact fun h => absurd h (by decide)
    | exact fun _ => ⟨_, rfl, rfl⟩
theorem ldy (m : Mode) : Statement (.ldy m) := by
  cases m <;> first
    | exact fun h => absurd h (by decide)
    | exact fun _ => ⟨_, rfl, rfl⟩
theorem sta (m : Mode) : Statement (.sta m) := by
  cases m <;> first
    | exact fun h => absurd h (by decide)
    | exact fun _ => ⟨_, rfl, rfl⟩
theorem stx (m : Mode) : Statement (.stx m) := by
  cases m <;> first
    | exact fun h => absurd h (by decide)
    | exact fun _ => ⟨_, rfl, rfl⟩
theorem sty (m : Mode) : Statement (.sty m) := by
  cases m <;> first
    | exact fun h => absurd h (by decide)
    | exact fun _ => ⟨_, rfl, rfl⟩

end Sys2Proof.Laws.OpcodeRoundTrip
end

