-- ==== Sys2Proof/Laws/Shapes.lean ====
section
/-! SUPPORT. How to establish the four shapes of result claims (Sys2Proof/Safety.lean) from `after`, and the whole
effect of the shared operations those claims are about. -/

namespace Sys2Proof.Machine

/-! ### The shapes -/

theorem implied_of {op : Byte} {i : Instr} {effect : State → State → Prop} (rows : ∀ k, decode k = i ↔ k = op)
    (run : runs i = true) (h : ∀ s, effect s (after params i s)) : Implied op i effect :=
  ⟨rows, fun s => ⟨_, exec_eq_after i s run, h s⟩⟩

theorem readsOperand_of {mk : Mode → Instr} {rows : List (Byte × Mode)} {effect : Byte → State → State → Prop}
    (decodes : ∀ op m, decode op = mk m ↔ (op, m) ∈ rows)
    (run : ∀ c ∈ rows, c.2 ≠ .ind ∧ c.2 ≠ .rel ∧ runs (mk c.2) = true)
    (h : ∀ c ∈ rows, ∀ s, effect (operandOf c.2 s) (s.setPc (nextPc c.2 s)) (after params (mk c.2) s)) :
    ReadsOperand mk rows effect :=
  ⟨decodes, fun _ m hm s =>
    have hr := run _ hm
    ⟨operandOf m s, after params (mk m) s, fetchOperand_eq hr.1 hr.2.1 s, exec_eq_after _ s hr.2.2, h _ hm s⟩⟩

theorem storesRegister_of {mk : Mode → Instr} {rows : List (Byte × Mode)} {reg : State → Byte}
    (decodes : ∀ op m, decode op = mk m ↔ (op, m) ∈ rows)
    (run : ∀ c ∈ rows, c.2.hasEa = true)
    (h : ∀ m s, exec (mk m) s = storeByte m (reg s) s) : StoresRegister mk rows reg :=
  ⟨decodes, fun _ m hm s =>
    ⟨eaOf m s, eaFresh_eq (run _ hm) s, (h m s).trans (storeByte_eq (run _ hm) _ s)⟩⟩

/-- A read-modify-write whose meaning reads its operand, stores `r` of it to the place it came from and then applies
`flagsOf`, an effect on the status register alone. -/
theorem modifiesOperand_of {mk : Mode → Instr} {run : Mode → State → Result} {rows : List (Byte × Mode)}
    {result : Byte → Bool → Nat} {flags : Byte → Bool → Flag → Option Bool} (r : Byte → Bool → Byte)
    (flagsOf : Byte → Bool → State → State)
    (decodes : ∀ op m, decode op = mk m ↔ (op, m) ∈ rows)
    (modes : ∀ c ∈ rows, c.2 = .acc ∨ c.2.rewritesMemory = true)
    (hrun : ∀ m s, run m s = withOperand m s fun v t =>
      flagsOf v (t.flag .c) (storeToLast m (r v (t.flag .c)) t))
    (hr : ∀ v c, r v c = BitVec.ofNat 8 (result v c))
    (hp : ∀ v c s, flagsOf v c s = s.setP (flagsOf v c s).p)
    (hw : ∀ v c s k w, (flagsOf v c (s.memWrite k w)) = (flagsOf v c s).memWrite k w)
    (hf : ∀ v c s, FlagsWritten s.p (flagsOf v c s).p (flags v c)) :
    ModifiesOperand mk run rows result flags := by
  refine ⟨decodes, fun op m hm s => ⟨fun hacc => ?_, fun hacc => ?_⟩⟩
  · subst hacc
    refine ⟨_, hf s.a (s.flag .c) (s.setA (r s.a (s.flag .c))), ?_⟩
    rw [hrun, withOperand_eq (by decide) (by decide), storeToLast_acc, hp]
    simp only [operandOf, nextPc, Mode.operandBytes, ← hr]
    simp [State.setP, State.setA]
  · have hm' : m.rewritesMemory = true := (modes _ hm).resolve_left hacc
    refine ⟨eaOf m s, _, eaFresh_eq (Mode.hasEa_of_rewritesMemory hm') s,
      hf (s.memRead (eaOf m s)) (s.flag .c) (s.setPc (nextPc m s)), ?_⟩
    rw [hrun, withOperand_eq (by rintro rfl; cases hm') (by rintro rfl; cases hm'), storeToLast_mem hm', hw, hp,
      operandOf_hasEa (Mode.hasEa_of_rewritesMemory hm'), hr]
    rfl

/-! ### A status write commutes with what does not look at the status register -/

theorem eaOf_setP (m : Mode) (s : State) (p : Byte) : eaOf m (s.setP p) = eaOf m s := by cases m <;> rfl

theorem operandOf_setP (m : Mode) (s : State) (p : Byte) : operandOf m (s.setP p) = operandOf m s := by
  cases m <;> rfl

theorem eaLast_setP (m : Mode) (s : State) (p : Byte) : eaLast m (s.setP p) = eaLast m s := by cases m <;> rfl

theorem storeToLast_setP (m : Mode) (v : Byte) (s : State) (p : Byte) :
    storeToLast m v (s.setP p) = (storeToLast m v s).setP p := by
  cases m <;> first
    | rfl
    | (simp only [storeToLast, eaLast_setP]; simp only [eaLast, State.memWrite_setP])

theorem push_setP (v : Byte) (s : State) (p : Byte) : push v (s.setP p) = (push v s).setP p := by
  rw [push_eq, push_eq]
  rfl

theorem setZN_memWrite (v : Byte) (s : State) (k : Word) (w : Byte) :
    setZN v (s.memWrite k w) = (setZN v s).memWrite k w := by
  simp [setZN, State.setFlag, State.memWrite_setP]

theorem shiftFlags_memWrite (q : Shifted) (s : State) (k : Word) (w : Byte) :
    shiftFlags q (s.memWrite k w) = (shiftFlags q s).memWrite k w := by
  simp [shiftFlags, State.setFlag, State.memWrite_setP]

end Sys2Proof.Machine
end

