-- ==== Sys2Proof/Tests/Slice0.lean ====
section
/-! SUPPORT. The model's own tests. Expected results come from the spec: the "Encodings" lines of files 41 to 47 and
the vectors of 95_test_vectors.md, by their numbers. `witness_<Name>` shows that the hypotheses of the obligation
<Name> are met. -/

namespace Sys2Proof.Tests

open Sys2Proof Sys2Proof.Machine

/-! ### Well-formedness: an ill-formed term for each check -/

theorem test_wf_refuses_accumulatorSource : (Instr.adc .acc).wf = false := by decide
theorem test_wf_refuses_bit : (Instr.bit .imm).wf = false := by decide
theorem test_wf_refuses_shiftTarget : (Instr.asl .absy).wf = false := by decide
theorem test_wf_refuses_compareIndex : (Instr.cpx .zpx).wf = false := by decide
theorem test_wf_refuses_inc : (Instr.inc .acc).wf = false := by decide
theorem test_wf_refuses_jmp : (Instr.jmp .zp).wf = false := by decide
theorem test_wf_refuses_ldx : (Instr.ldx .zpx).wf = false := by decide
theorem test_wf_refuses_ldy : (Instr.ldy .absy).wf = false := by decide
theorem test_wf_refuses_sta : (Instr.sta .imm).wf = false := by decide
theorem test_wf_refuses_stx : (Instr.stx .absy).wf = false := by decide
theorem test_wf_refuses_sty : (Instr.sty .zpy).wf = false := by decide
theorem test_wf_refuses_placeholder : (Instr.xxx 0xEA).wf = false := by decide

/-! ### Decoding: a word of every constructor, from the "Encodings" line of its rule -/

/-- R101 to R106. -/
theorem test_decode_arithmetic :
    decodeTableWord 8 0b01101101 = some (.adc .abs) ∧ decodeTableWord 8 0b11110001 = some (.sbc .indy) ∧
    decodeTableWord 8 0b00101001 = some (.and .imm) ∧ decodeTableWord 8 0b00000001 = some (.ora .indx) ∧
    decodeTableWord 8 0b01011001 = some (.eor .absy) ∧ decodeTableWord 8 0b00101100 = some (.bit .abs) := by decide

/-- R109 to R112. -/
theorem test_decode_shifts :
    decodeTableWord 8 0b00001010 = some (.asl .acc) ∧ decodeTableWord 8 0b01000110 = some (.lsr .zp) ∧
    decodeTableWord 8 0b00110110 = some (.rol .zpx) ∧ decodeTableWord 8 0b01111110 = some (.ror .absx) := by decide

/-- R115 to R124. -/
theorem test_decode_compares :
    decodeTableWord 8 0b11010101 = some (.cmp .zpx) ∧ decodeTableWord 8 0b11100000 = some (.cpx .imm) ∧
    decodeTableWord 8 0b11000100 = some (.cpy .zp) ∧ decodeTableWord 8 0b11111110 = some (.inc .absx) ∧
    decodeTableWord 8 0b11001110 = some (.dec .abs) ∧ decodeTableWord 8 0b11101000 = some .inx ∧
    decodeTableWord 8 0b11001000 = some .iny ∧ decodeTableWord 8 0b11001010 = some .dex ∧
    decodeTableWord 8 0b10001000 = some .dey := by decide

/-- R128 to R139. -/
theorem test_decode_control :
    decodeTableWord 8 0b10010000 = some .bcc ∧ decodeTableWord 8 0b10110000 = some .bcs ∧
    decodeTableWord 8 0b11010000 = some .bne ∧ decodeTableWord 8 0b11110000 = some .beq ∧
    decodeTableWord 8 0b00010000 = some .bpl ∧ decodeTableWord 8 0b00110000 = some .bmi ∧
    decodeTableWord 8 0b01010000 = some .bvc ∧ decodeTableWord 8 0b01110000 = some .bvs ∧
    decodeTableWord 8 0b01001100 = some (.jmp .abs) ∧ decodeTableWord 8 0b01101100 = some (.jmp .ind) ∧
    decodeTableWord 8 0b00100000 = some .jsr ∧ decodeTableWord 8 0b01100000 = some .rts ∧
    decodeTableWord 8 0b01000000 = some .rti := by decide

/-- R142 to R160. -/
theorem test_decode_stack_flags_transfers :
    decodeTableWord 8 0b01001000 = some .pha ∧ decodeTableWord 8 0b00001000 = some .php ∧
    decodeTableWord 8 0b01101000 = some .pla ∧ decodeTableWord 8 0b00101000 = some .plp ∧
    decodeTableWord 8 0b10111010 = some .tsx ∧ decodeTableWord 8 0b10011010 = some .txs ∧
    decodeTableWord 8 0b00011000 = some .clc ∧ decodeTableWord 8 0b00111000 = some .sec ∧
    decodeTableWord 8 0b11011000 = some .cld ∧ decodeTableWord 8 0b11111000 = some .sed ∧
    decodeTableWord 8 0b01011000 = some .cli ∧ decodeTableWord 8 0b01111000 = some .sei ∧
    decodeTableWord 8 0b10111000 = some .clv ∧ decodeTableWord 8 0b10101010 = some .tax ∧
    decodeTableWord 8 0b10101000 = some .tay ∧ decodeTableWord 8 0b10001010 = some .txa ∧
    decodeTableWord 8 0b10011000 = some .tya := by decide

/-- R161 to R170. -/
theorem test_decode_brk_nop_loads_stores :
    decodeTableWord 8 0b00000000 = some .brk ∧ decodeTableWord 8 0b11101010 = some .nop ∧
    decodeTableWord 8 0b11111111 = some (.xxx 0xFF) ∧ decodeTableWord 8 0b10110001 = some (.lda .indy) ∧
    decodeTableWord 8 0b10110110 = some (.ldx .zpy) ∧ decodeTableWord 8 0b10111100 = some (.ldy .absx) ∧
    decodeTableWord 8 0b10000001 = some (.sta .indx) ∧ decodeTableWord 8 0b10010110 = some (.stx .zpy) ∧
    decodeTableWord 8 0b10010100 = some (.sty .zpx) := by decide

/-- A whole instruction with its operand bytes, and one whose last byte is missing (R55, R57). -/
theorem test_decodeBytes :
    decodeBytes params [0x4C, 0x34, 0x12, 0xEA] = .ok ⟨.jmp .abs, [0x34, 0x12], [0xEA]⟩ ∧
    decodeBytes params [0x4C, 0x34] = .error .operandMissing ∧ decodeBytes params [] = .error .noOpcode ∧
    encode params (.jmp .abs) [0x34, 0x12] = some [0x4C, 0x34, 0x12] ∧
    encode params (.jmp .abs) [0x34] = none ∧ encode params (.adc .acc) [] = none := by decide

/-! ### Single steps: the base state of 95_test_vectors.md, and what is seen of the next state -/

/-- The base state with an instruction's bytes at 0x1000. -/
def base (bytes : List Byte) : State := { State.reset with pc := 0x1000 }.pokeBytes 0x1000 bytes

/-- A, X, Y, S, P, PC, chosen bytes of memory, and the events. -/
structure Seen where
  a : Byte
  x : Byte
  y : Byte
  sp : Byte
  p : Byte
  pc : Word
  bytes : List Byte
  events : List SoundEvent
  deriving DecidableEq, Repr

def view (t : State) (addrs : List Word) : Seen := ⟨t.a, t.x, t.y, t.sp, t.p, t.pc, addrs.map t.memRead, t.snd⟩

/-- What is seen after one step. -/
def seen (s : State) (addrs : List Word) : Option Seen :=
  match step s with
  | .next t => some (view t addrs)
  | .fault _ => none
  | .refused _ => none

/-- V2 (R101). -/
theorem test_adc_carry_out :
    seen { base [0x69, 0x01] with a := 0xFF } [] =
      some ⟨0x00, 0x00, 0x00, 0xFF, 0x43, 0x1002, [], []⟩ := by decide

/-- V7 (R101). -/
theorem test_adc_decimal_ignored :
    seen { base [0x69, 0x01] with a := 0x09, p := 0x08 } [] =
      some ⟨0x0A, 0x00, 0x00, 0xFF, 0x08, 0x1002, [], []⟩ := by decide

/-- V9 (R102). -/
theorem test_sbc_borrow_in :
    seen { base [0xE9, 0x03] with a := 0x05, p := 0x00 } [] =
      some ⟨0x01, 0x00, 0x00, 0xFF, 0x41, 0x1002, [], []⟩ := by decide

/-- V10 (R102). -/
theorem test_sbc_borrow_out :
    seen { base [0xE9, 0x05] with a := 0x03, p := 0x01 } [] =
      some ⟨0xFE, 0x00, 0x00, 0xFF, 0xC0, 0x1002, [], []⟩ := by decide

/-- V13 (R103). -/
theorem test_and :
    seen { base [0x29, 0x0F] with a := 0xF0 } [] =
      some ⟨0x00, 0x00, 0x00, 0xFF, 0x02, 0x1002, [], []⟩ := by decide

/-- V14 (R104). -/
theorem test_ora :
    seen { base [0x09, 0x80] with a := 0x01 } [] =
      some ⟨0x81, 0x00, 0x00, 0xFF, 0x80, 0x1002, [], []⟩ := by decide

/-- V15 (R105). -/
theorem test_eor :
    seen { base [0x49, 0xFF] with a := 0xFF } [] =
      some ⟨0x00, 0x00, 0x00, 0xFF, 0x02, 0x1002, [], []⟩ := by decide

/-- V16 (R106). -/
theorem test_bit :
    seen { (base [0x24, 0x10]).poke 0x0010 0xC0 with a := 0x01 } [] =
      some ⟨0x01, 0x00, 0x00, 0xFF, 0xC2, 0x1002, [], []⟩ := by decide

/-- V18 (R109). -/
theorem test_asl :
    seen { base [0x0A] with a := 0x80 } [] =
      some ⟨0x00, 0x00, 0x00, 0xFF, 0x03, 0x1001, [], []⟩ := by decide

/-- V26 (R110). -/
theorem test_lsr :
    seen { (base [0x5E, 0x00, 0x20]).poke 0x2005 0x02 with x := 0x05 } [0x2005] =
      some ⟨0x00, 0x05, 0x00, 0xFF, 0x00, 0x1003, [0x01], []⟩ := by decide

/-- V27 (R111). -/
theorem test_rol :
    seen { (base [0x36, 0xF0]).poke 0x000F 0x40 with x := 0x1F } [0x000F] =
      some ⟨0x00, 0x1F, 0x00, 0xFF, 0x80, 0x1002, [0x80], []⟩ := by decide

/-- V24 (R112). -/
theorem test_ror :
    seen { base [0x6A] with a := 0x00, p := 0x01 } [] =
      some ⟨0x80, 0x00, 0x00, 0xFF, 0x80, 0x1001, [], []⟩ := by decide

/-- V32 (R115). -/
theorem test_cmp_below :
    seen { base [0xC9, 0x01] with a := 0x00 } [] =
      some ⟨0x00, 0x00, 0x00, 0xFF, 0x80, 0x1002, [], []⟩ := by decide

/-- V33 (R115). -/
theorem test_cmp_bit7_of_difference :
    seen { base [0xC9, 0x00] with a := 0x80 } [] =
      some ⟨0x80, 0x00, 0x00, 0xFF, 0x81, 0x1002, [], []⟩ := by decide

/-- V36 (R116). -/
theorem test_cpx :
    seen { base [0xE0, 0x10] with x := 0x20 } [] =
      some ⟨0x00, 0x20, 0x00, 0xFF, 0x01, 0x1002, [], []⟩ := by decide

/-- V37 (R117). -/
theorem test_cpy :
    seen { (base [0xC4, 0x10]).poke 0x0010 0x30 with y := 0x20 } [] =
      some ⟨0x00, 0x00, 0x20, 0xFF, 0x80, 0x1002, [], []⟩ := by decide

/-- V28 (R119). -/
theorem test_inc_window :
    seen ((base [0xEE, 0x04, 0xD4]).poke 0xD404 0x41) [0xD404] =
      some ⟨0x00, 0x00, 0x00, 0xFF, 0x00, 0x1003, [0x41], [⟨0x04, 0x42⟩]⟩ := by decide

/-- V42 (R119). -/
theorem test_inc_wraps :
    seen ((base [0xE6, 0x10]).poke 0x0010 0xFF) [0x0010] =
      some ⟨0x00, 0x00, 0x00, 0xFF, 0x02, 0x1002, [0x00], []⟩ := by decide

/-- V43 (R120). -/
theorem test_dec :
    seen ((base [0xCE, 0x00, 0x20]).poke 0x2000 0x00) [0x2000] =
      some ⟨0x00, 0x00, 0x00, 0xFF, 0x80, 0x1003, [0xFF], []⟩ := by decide

/-- V38 (R121). -/
theorem test_inx :
    seen { base [0xE8] with x := 0xFF } [] =
      some ⟨0x00, 0x00, 0x00, 0xFF, 0x02, 0x1001, [], []⟩ := by decide

/-- V40 (R122). -/
theorem test_iny :
    seen { base [0xC8] with y := 0x7F } [] =
      some ⟨0x00, 0x00, 0x80, 0xFF, 0x80, 0x1001, [], []⟩ := by decide

/-- V39 (R123). -/
theorem test_dex :
    seen { base [0xCA] with x := 0x00 } [] =
      some ⟨0x00, 0xFF, 0x00, 0xFF, 0x80, 0x1001, [], []⟩ := by decide

/-- V41 (R124). -/
theorem test_dey :
    seen { base [0x88] with y := 0x01 } [] =
      some ⟨0x00, 0x00, 0x00, 0xFF, 0x02, 0x1001, [], []⟩ := by decide

/-- V48 (R128). -/
theorem test_bcc :
    seen { base [0x90, 0x10] with p := 0x00 } [] =
      some ⟨0x00, 0x00, 0x00, 0xFF, 0x00, 0x1012, [], []⟩ := by decide

/-- V49 (R129). -/
theorem test_bcs :
    seen { base [0xB0, 0x10] with p := 0x00 } [] =
      some ⟨0x00, 0x00, 0x00, 0xFF, 0x00, 0x1002, [], []⟩ := by decide

/-- V45 (R130). -/
theorem test_bne_taken :
    seen { base [0xD0, 0x05] with p := 0x00 } [] =
      some ⟨0x00, 0x00, 0x00, 0xFF, 0x00, 0x1007, [], []⟩ := by decide

/-- V46 (R130). -/
theorem test_bne_not_taken :
    seen { base [0xD0, 0x05] with p := 0x02 } [] =
      some ⟨0x00, 0x00, 0x00, 0xFF, 0x02, 0x1002, [], []⟩ := by decide

/-- V47 (R131). -/
theorem test_beq :
    seen { base [0xF0, 0xFC] with p := 0x02 } [] =
      some ⟨0x00, 0x00, 0x00, 0xFF, 0x02, 0x0FFE, [], []⟩ := by decide

/-- V50 (R132). -/
theorem test_bpl :
    seen { base [0x10, 0x7F] with p := 0x00 } [] =
      some ⟨0x00, 0x00, 0x00, 0xFF, 0x00, 0x1081, [], []⟩ := by decide

/-- V51 (R133). -/
theorem test_bmi :
    seen { base [0x30, 0x80] with p := 0x80 } [] =
      some ⟨0x00, 0x00, 0x00, 0xFF, 0x80, 0x0F82, [], []⟩ := by decide

/-- V52 (R134). -/
theorem test_bvc :
    seen { base [0x50, 0x02] with p := 0x40 } [] =
      some ⟨0x00, 0x00, 0x00, 0xFF, 0x40, 0x1002, [], []⟩ := by decide

/-- V53 (R135). -/
theorem test_bvs :
    seen { base [0x70, 0x02] with p := 0x40 } [] =
      some ⟨0x00, 0x00, 0x00, 0xFF, 0x40, 0x1004, [], []⟩ := by decide

/-- V55 (R136). -/
theorem test_jmp_absolute :
    seen (base [0x4C, 0x34, 0x12]) [] =
      some ⟨0x00, 0x00, 0x00, 0xFF, 0x00, 0x1234, [], []⟩ := by decide

/-- V57 (R136). -/
theorem test_jmp_indirect_page_edge :
    seen ((((base [0x6C, 0xFF, 0x12]).poke 0x12FF 0x78).poke 0x1300 0x56).poke 0x1200 0x99) [] =
      some ⟨0x00, 0x00, 0x00, 0xFF, 0x00, 0x5678, [], []⟩ := by decide

/-- V58 (R137). -/
theorem test_jsr :
    seen { base [0x20, 0x00, 0x30] with sp := 0xFD } [0x01FD, 0x01FC] =
      some ⟨0x00, 0x00, 0x00, 0xFB, 0x00, 0x3000, [0x10, 0x02], []⟩ := by decide

/-- V59 (R138). -/
theorem test_rts :
    seen { ((base [0x60]).poke 0x01FC 0x02).poke 0x01FD 0x20 with sp := 0xFB } [] =
      some ⟨0x00, 0x00, 0x00, 0xFD, 0x00, 0x2003, [], []⟩ := by decide

/-- V60 (R139). -/
theorem test_rti :
    seen { ((base [0x40]).poke 0x01FC 0x02).poke 0x01FD 0x20 with sp := 0xFB, p := 0x00 } [] =
      some ⟨0x00, 0x00, 0x00, 0xFD, 0x00, 0x2003, [], []⟩ := by decide

/-- V65 (R142). -/
theorem test_pha :
    seen { base [0x48] with a := 0x55, sp := 0x00 } [0x0100] =
      some ⟨0x55, 0x00, 0x00, 0x00, 0x00, 0x1001, [0x55], []⟩ := by decide

/-- V62 (R143). -/
theorem test_php :
    seen { base [0x08] with p := 0xC3, sp := 0xFD } [0x01FD] =
      some ⟨0x00, 0x00, 0x00, 0xFC, 0xC3, 0x1001, [0xC3], []⟩ := by decide

/-- V63 (R144). -/
theorem test_pla_sets_n :
    seen { (base [0x68]).poke 0x01FD 0x80 with sp := 0xFC } [] =
      some ⟨0x80, 0x00, 0x00, 0xFD, 0x80, 0x1001, [], []⟩ := by decide

/-- V66 (R144). -/
theorem test_pla_clamps :
    seen { (base [0x68]).poke 0x01FF 0x12 with sp := 0xFF } [] =
      some ⟨0x12, 0x00, 0x00, 0xFF, 0x00, 0x1001, [], []⟩ := by decide

/-- V64 (R145). -/
theorem test_plp :
    seen { (base [0x28]).poke 0x01FD 0xFF with sp := 0xFC } [] =
      some ⟨0x00, 0x00, 0x00, 0xFD, 0xFF, 0x1001, [], []⟩ := by decide

/-- V67 (R146). -/
theorem test_tsx :
    seen { base [0xBA] with sp := 0xFD } [] =
      some ⟨0x00, 0xFD, 0x00, 0xFD, 0x80, 0x1001, [], []⟩ := by decide

/-- V68 (R147). -/
theorem test_txs :
    seen { base [0x9A] with x := 0x00, p := 0x00 } [] =
      some ⟨0x00, 0x00, 0x00, 0x00, 0x00, 0x1001, [], []⟩ := by decide

/-- V70 (R149). -/
theorem test_clc :
    seen { base [0x18] with p := 0xFF } [] =
      some ⟨0x00, 0x00, 0x00, 0xFF, 0xFE, 0x1001, [], []⟩ := by decide

/-- V71 (R150). -/
theorem test_sec :
    seen { base [0x38] with p := 0x00 } [] =
      some ⟨0x00, 0x00, 0x00, 0xFF, 0x01, 0x1001, [], []⟩ := by decide

/-- V72 (R151). -/
theorem test_cld :
    seen { base [0xD8] with p := 0xFF } [] =
      some ⟨0x00, 0x00, 0x00, 0xFF, 0xF7, 0x1001, [], []⟩ := by decide

/-- V73 (R152). -/
theorem test_sed :
    seen { base [0xF8] with p := 0x00 } [] =
      some ⟨0x00, 0x00, 0x00, 0xFF, 0x08, 0x1001, [], []⟩ := by decide

/-- V74 (R153). -/
theorem test_cli :
    seen { base [0x58] with p := 0xFF } [] =
      some ⟨0x00, 0x00, 0x00, 0xFF, 0xFB, 0x1001, [], []⟩ := by decide

/-- V75 (R154). -/
theorem test_sei :
    seen { base [0x78] with p := 0x00 } [] =
      some ⟨0x00, 0x00, 0x00, 0xFF, 0x04, 0x1001, [], []⟩ := by decide

/-- V76 (R155). -/
theorem test_clv :
    seen { base [0xB8] with p := 0xFF } [] =
      some ⟨0x00, 0x00, 0x00, 0xFF, 0xBF, 0x1001, [], []⟩ := by decide

/-- V77 (R157). -/
theorem test_tax :
    seen { base [0xAA] with a := 0x00, x := 0x55 } [] =
      some ⟨0x00, 0x00, 0x00, 0xFF, 0x02, 0x1001, [], []⟩ := by decide

/-- V78 (R158). -/
theorem test_tay :
    seen { base [0xA8] with a := 0x80 } [] =
      some ⟨0x80, 0x00, 0x80, 0xFF, 0x80, 0x1001, [], []⟩ := by decide

/-- V79 (R159). -/
theorem test_txa :
    seen { base [0x8A] with x := 0x01, a := 0xFF } [] =
      some ⟨0x01, 0x01, 0x00, 0xFF, 0x00, 0x1001, [], []⟩ := by decide

/-- V80 (R160). -/
theorem test_tya :
    seen { base [0x98] with y := 0x00, a := 0x01 } [] =
      some ⟨0x00, 0x00, 0x00, 0xFF, 0x02, 0x1001, [], []⟩ := by decide

/-- V81 (R161). -/
theorem test_brk :
    seen { base [0x00] with sp := 0xFD } [] =
      some ⟨0x00, 0x00, 0x00, 0xFD, 0x00, 0x0000, [], []⟩ := by decide

/-- V82 (R162). -/
theorem test_nop :
    seen (base [0xEA]) [] =
      some ⟨0x00, 0x00, 0x00, 0xFF, 0x00, 0x1001, [], []⟩ := by decide

/-- V83 (R163). -/
theorem test_xxx_two_bytes :
    seen (base [0x0C, 0x34, 0x12]) [] =
      some ⟨0x00, 0x00, 0x00, 0xFF, 0x00, 0x1003, [], []⟩ := by decide

/-- V85 (R163). -/
theorem test_xxx_one_byte :
    seen { base [0xEB, 0x01] with a := 0x05, p := 0x01 } [] =
      some ⟨0x05, 0x00, 0x00, 0xFF, 0x01, 0x1002, [], []⟩ := by decide

/-- V92 (R165). -/
theorem test_lda_pointer_wraps :
    seen { (((base [0xA1, 0xFF]).poke 0x00FF 0x00).poke 0x0000 0x30).poke 0x3000 0xCD with x := 0x00 } [] =
      some ⟨0xCD, 0x00, 0x00, 0xFF, 0x80, 0x1002, [], []⟩ := by decide

/-- V93 (R165). -/
theorem test_lda_indirect_y :
    seen { (((base [0xB1, 0x20]).poke 0x0020 0xF0).poke 0x0021 0x30).poke 0x3100 0xEF with y := 0x10 } [] =
      some ⟨0xEF, 0x00, 0x10, 0xFF, 0x80, 0x1002, [], []⟩ := by decide

/-- V89 (R166). -/
theorem test_ldx :
    seen { (base [0xB6, 0xFF]).poke 0x0001 0x42 with y := 0x02 } [] =
      some ⟨0x00, 0x42, 0x02, 0xFF, 0x00, 0x1002, [], []⟩ := by decide

/-- V90 (R167). -/
theorem test_ldy :
    seen { (base [0xBC, 0xFF, 0x20]).poke 0x2100 0x07 with x := 0x01 } [] =
      some ⟨0x00, 0x01, 0x07, 0xFF, 0x00, 0x1003, [], []⟩ := by decide

/-- V97 (R168). -/
theorem test_sta_window :
    seen { base [0x8D, 0x18, 0xD4] with a := 0x0F } [0xD418] =
      some ⟨0x0F, 0x00, 0x00, 0xFF, 0x00, 0x1003, [0x00], [⟨0x18, 0x0F⟩]⟩ := by decide

/-- V99 (R168). -/
theorem test_sta_below_window :
    seen { base [0x8D, 0xFF, 0xD3] with a := 0x01 } [0xD3FF] =
      some ⟨0x01, 0x00, 0x00, 0xFF, 0x00, 0x1003, [0x01], []⟩ := by decide

/-- V101 (R169). -/
theorem test_stx :
    seen { base [0x96, 0x10] with x := 0x33, y := 0x01 } [0x0011] =
      some ⟨0x00, 0x33, 0x01, 0xFF, 0x00, 0x1002, [0x33], []⟩ := by decide

/-- V102 (R170). -/
theorem test_sty :
    seen { base [0x94, 0xFF] with y := 0x44, x := 0x02 } [0x0001] =
      some ⟨0x00, 0x02, 0x44, 0xFF, 0x00, 0x1002, [0x44], []⟩ := by decide

/-- V19 (R109): with `P_ASL_Z = intermediate9`, 0x80 shifted left is not zero. -/
theorem test_asl_intermediate9 :
    (match stepWith { params with aslZ := .intermediate9 } { base [0x0A] with a := 0x80 } with
      | .next t => some (t.a, t.p)
      | .fault _ => none
      | .refused _ => none) = some (0x00, 0x01) := by decide

/-- R163 and R11: with `P_UNDOC_LEN` 0 for every opcode, 0x0C consumes no operand byte, in a step and in a run. -/
theorem test_run_with_other_lengths :
    (match stepWith { params with undocLen := fun _ => 0 } (base [0x0C, 0x34, 0x12]) with
      | .next t => some t.pc
      | .fault _ => none
      | .refused _ => none) = some 0x1001 ∧
    runLoop { params with undocLen := fun _ => 0 } 2 (enterRun 0x1000 0x00 (base [0x0C, 0x60])) =
      .ended { base [0x0C, 0x60] with pc := 0x0001 } := by decide

/-- R137 with D16: JSR at 0x01FB pushes over its own operand, then reads it. -/
theorem test_jsr_overwrites_its_operand :
    seen { State.reset with pc := 0x01FB, sp := 0xFD, mem := [(0x01FB, 0x20), (0x01FC, 0x00), (0x01FD, 0x30)] }
      [0x01FC, 0x01FD] = some ⟨0x00, 0x00, 0x00, 0xFB, 0x00, 0x01FD, [0xFD, 0x01], []⟩ := by decide

/-- D18 (R87): a mode that `fetch_operand` does not list. -/
theorem test_lda_rel_refused : exec (.lda .rel) State.reset = .refused (.fetchOperandMode .rel) := rfl

/-- D18 (R93): a mode that `store_fresh` does not list. -/
theorem test_sta_acc_refused : exec (.sta .acc) State.reset = .refused (.storeFreshMode .acc) := rfl

/-! ### Placing an instruction where the step fetches it -/

/-- The bytes lie in ascending order from PC, those above `nbits` zero, and the step runs the instruction. -/
theorem test_withFetchWord :
    seen (State.reset.withFetchWord 16 0x05A9) [0x0000, 0x0001, 0x0002] =
      some ⟨0x05, 0x00, 0x00, 0xFF, 0x00, 0x0002, [0xA9, 0x05, 0x00], []⟩ ∧
    seen (State.reset.withFetchWord 8 0xFFA9) [0x0001] =
      some ⟨0x00, 0x00, 0x00, 0xFF, 0x02, 0x0002, [0x00], []⟩ := by decide

/-! ### Memory, the host and the driver -/

/-- The canonical form: cells rise, and writing 0x00 removes the cell. -/
theorem test_memory_canonical :
    Memory.write (Memory.write [] 0x2000 0x01) 0x1000 0x02 = [(0x1000, 0x02), (0x2000, 0x01)] ∧
    Memory.write [(0x1000, 0x02), (0x2000, 0x01)] 0x1000 0x00 = [(0x2000, 0x01)] := by decide

/-- E2: the first and the last window address, and an alias of register 0x18. -/
theorem test_window_events :
    (((State.reset.memWrite 0xD400 0x11).memWrite 0xD7FF 0x44).memWrite 0xD7F8 0x33).snd =
      [⟨0x00, 0x11⟩, ⟨0x1F, 0x44⟩, ⟨0x18, 0x33⟩] := by decide

/-- W4, and the last request that fits of E3 (R38). -/
theorem test_bulk_acceptance :
    bulkFill params 0xFFF0 0x01 0x10 State.reset = State.reset ∧
    (bulkCopy params 0xFFFE [0x01] State.reset).memRead 0xFFFE = 0x01 := by decide

/-- E8 and E9: BRK and RTS end the run after one step. -/
theorem test_run_brk_rts :
    runLoop params 1 (enterRun 0x1000 0x00 State.reset) =
      .ended { State.reset with sp := 0xFD, pc := 0x0000 } ∧
    runLoop params 1 (enterRun 0x1000 0x00 { State.reset with mem := [(0x1000, 0x60)] }) =
      .ended { State.reset with mem := [(0x1000, 0x60)], pc := 0x0001 } := by decide

/-- W9: TAX, RTS with the seed 0x07. -/
theorem test_run_seed :
    runLoop params 2 (enterRun 0x1000 0x07 { State.reset with mem := [(0x1000, 0xAA), (0x1001, 0x60)] }) =
      .ended { State.reset with a := 0x07, x := 0x07, mem := [(0x1000, 0xAA), (0x1001, 0x60)], pc := 0x0001 } := by
  decide

/-! ### Witnesses: the hypotheses of each obligation are met -/

theorem witness_DecodeInvertsEncode :
    ((Instr.jmp .ind).wf = true ∧ [0x00, 0x03].length = (Instr.jmp .ind).operandBytes params) ∧
    ((Instr.xxx 0x0C).wf = true ∧ [0x34, 0x12].length = (Instr.xxx 0x0C).operandBytes params) ∧
    (Instr.rts.wf = true ∧ ([] : List Byte).length = Instr.rts.operandBytes params) := by decide

theorem witness_EncodeInvertsDecode :
    decodeBytes params [0xEB, 0x01, 0xEA] = .ok ⟨.xxx 0xEB, [0x01], [0xEA]⟩ := by decide

/-- Parameters that differ from the machine's in each of the two the step depends on. -/
def otherParams : Params := { params with undocLen := fun _ => 0, aslZ := .intermediate9 }

/-- With the machine's parameters, with others, and an instruction that depends on none. -/
theorem witness_StepRunsTheDecodedInstruction :
    decodeBytes otherParams [(base [0x0C]).memRead 0x1000, (base [0x0C]).memRead (0x1000 + 1),
      (base [0x0C]).memRead (0x1000 + 2)] = .ok ⟨.xxx 0x0C, [], [0x00, 0x00]⟩ ∧
    (∀ m, Instr.nop ≠ .asl m) ∧ (∀ op, Instr.nop ≠ .xxx op) ∧
    decodeBytes params [(base [0x4C, 0x34, 0x12]).memRead 0x1000, (base [0x4C, 0x34, 0x12]).memRead (0x1000 + 1),
      (base [0x4C, 0x34, 0x12]).memRead (0x1000 + 2)] = .ok ⟨.jmp .abs, [0x34, 0x12], []⟩ :=
  ⟨by decide, (fun _ => Instr.noConfusion), (fun _ => Instr.noConfusion), by decide⟩

/-- One run of `exec` that several statements about a next state apply to. -/
theorem lda_next (s : State) : exec (.lda .abs) s = .next (after params (.lda .abs) s) := exec_eq_after _ s rfl

theorem witness_SequentialPcIsAfterTheOperands :
    (Instr.lda .abs).wf = true ∧ (Instr.lda .abs).transfersControl = false ∧
    exec (.lda .abs) State.reset = .next (after params (.lda .abs) State.reset) := ⟨rfl, rfl, lda_next _⟩

/-- STA is no writer of A, X, Y or S; LDA is one of A. -/
theorem witness_RegistersChangeOnlyByTheirWriters :
    (Instr.sta .abs).writesA = false ∧ (Instr.sta .abs).writesX = false ∧ (Instr.sta .abs).writesY = false ∧
    (Instr.sta .abs).writesS = false ∧ exec (.sta .abs) State.reset = .next (after params (.sta .abs) State.reset) :=
  ⟨rfl, rfl, rfl, rfl, exec_eq_after _ _ rfl⟩

/-- LDA keeps C and reads no flag, one it writes (Z) and one it keeps (C). -/
theorem witness_FlagsFollowTheirWritersAndReaders :
    exec (.lda .abs) State.reset = .next (after params (.lda .abs) State.reset) ∧
    (Instr.lda .abs).writesFlag .c = false ∧ (Instr.lda .abs).readsFlag .c = false ∧
    (Instr.lda .abs).writesFlag .z = true ∧ (Instr.lda .abs).readsFlag .z = false := ⟨lda_next _, rfl, rfl, rfl, rfl⟩

theorem witness_NonStoringInstructionsLeaveMemory :
    (Instr.lda .abs).writesBus = false ∧ exec (.lda .abs) State.reset = .next (after params (.lda .abs) State.reset) :=
  ⟨rfl, lda_next _⟩

/-- Outside the window, on its two edges and beside them, for a store and for a read-modify-write. -/
theorem witness_StoringInstructionsChangeOnlyTheirByte :
    eaFresh .abs { base [0x8D, 0xFF, 0xD3] with pc := 0x1001 } =
      some (0xD3FF, { base [0x8D, 0xFF, 0xD3] with pc := 0x1003 }) ∧
    eaFresh .abs { base [0x8D, 0x00, 0xD4] with pc := 0x1001 } =
      some (0xD400, { base [0x8D, 0x00, 0xD4] with pc := 0x1003 }) ∧
    eaFresh .abs { base [0xEE, 0xFF, 0xD7] with pc := 0x1001 } =
      some (0xD7FF, { base [0xEE, 0xFF, 0xD7] with pc := 0x1003 }) ∧
    eaFresh .abs { base [0xEE, 0x00, 0xD8] with pc := 0x1001 } =
      some (0xD800, { base [0xEE, 0x00, 0xD8] with pc := 0x1003 }) ∧
    Instr.sta .abs ∈ [.sta .abs, .stx .abs, .sty .abs, .asl .abs, .lsr .abs, .rol .abs, .ror .abs, .inc .abs, .dec .abs] ∧
    Instr.inc .abs ∈ [.sta .abs, .stx .abs, .sty .abs, .asl .abs, .lsr .abs, .rol .abs, .ror .abs, .inc .abs, .dec .abs] ∧
    runs (.sta .abs) = true ∧ runs (.inc .abs) = true := by decide

/-- The window's two edges, and the addresses beside them. -/
theorem witness_BusWriteStoresOrEmits :
    (0xD400 ≤ (0xD400 : Word).toNat ∧ (0xD400 : Word).toNat ≤ 0xD7FF) ∧
    (0xD400 ≤ (0xD7FF : Word).toNat ∧ (0xD7FF : Word).toNat ≤ 0xD7FF) ∧
    ((0xD3FF : Word).toNat < 0xD400 ∨ 0xD7FF < (0xD3FF : Word).toNat) ∧
    ((0xD800 : Word).toNat < 0xD400 ∨ 0xD7FF < (0xD800 : Word).toNat) := by decide

/-- The last register at the last alias is the last window address. -/
theorem witness_SoundRegisterAliases :
    31 < 32 ∧ BitVec.ofNat 16 (0xD400 + (0x1F : BitVec 5).toNat + 32 * 31) = (0xD7FF : Word) := by decide

theorem witness_StepKeepsMemoryCanonical :
    (base [0x8D, 0x00, 0x20]).Inv ∧
    step (base [0x8D, 0x00, 0x20]) = .next { base [0x8D, 0x00, 0x20] with pc := 0x1003 } ∧
    stepWith otherParams (base [0x8D, 0x00, 0x20]) = .next { base [0x8D, 0x00, 0x20] with pc := 0x1003 } :=
  ⟨by decide, rfl, rfl⟩

theorem witness_HostOperationsKeepMemoryCanonical : (base [0x8D, 0x00, 0x20]).Inv := by decide

theorem witness_WindowBytesChangeOnlyByBulkRequests :
    (0xD400 ≤ (0xD400 : Word).toNat ∧ (0xD400 : Word).toNat ≤ 0xD7FF) ∧
    (0xD400 ≤ (0xD7FF : Word).toNat ∧ (0xD7FF : Word).toNat ≤ 0xD7FF) ∧
    step (base [0xEA]) = .next { base [0xEA] with pc := 0x1001 } ∧
    stepWith otherParams (base [0xEA]) = .next { base [0xEA] with pc := 0x1001 } ∧
    (∀ d bs, HostOp.writeByte 0xD400 0x01 ≠ .bulkCopy d bs) ∧
    (∀ d v n, HostOp.writeByte 0xD400 0x01 ≠ .bulkFill d v n) :=
  ⟨by decide, by decide, rfl, rfl, (fun _ _ => HostOp.noConfusion), (fun _ _ _ => HostOp.noConfusion)⟩

/-- A step that emits one event, and one that emits none. -/
theorem witness_StepAppendsAtMostOneEvent :
    step (base [0x8D, 0x18, 0xD4]) = .next { base [0x8D, 0x18, 0xD4] with pc := 0x1003, snd := [⟨0x18, 0x00⟩] } ∧
    step (base [0xEA]) = .next { base [0xEA] with pc := 0x1001 } ∧
    stepWith otherParams (base [0x0C]) = .next { base [0x0C] with pc := 0x1001 } := ⟨rfl, rfl, rfl⟩

/-- The largest sum that is accepted and the smallest that is dropped, for a copy and for a fill. -/
theorem witness_BulkRequestsStoreOrAreDropped :
    params.bulkIntercept = false ∧
    (0xFFFE : Word).toNat + [(0x01 : Byte)].length ≤ 65535 ∧ 65536 ≤ (0xFFFF : Word).toNat + [(0x01 : Byte)].length ∧
    (0xFFF0 : Word).toNat + 0x0F ≤ 65535 ∧ 65536 ≤ (0xFFF0 : Word).toNat + 0x10 := by decide

/-- As before with interception, and a request that crosses the window's lower edge. -/
theorem witness_InterceptedBulkCopyEmitsWindowBytes :
    ({ params with bulkIntercept := true } : Params).bulkIntercept = true ∧
    (0xFFFE : Word).toNat + [(0x01 : Byte)].length ≤ 65535 ∧ 65536 ≤ (0xFFFF : Word).toNat + [(0x01 : Byte)].length ∧
    (bulkCopy { params with bulkIntercept := true } 0xD3FF [0x01, 0x02] State.reset).mem = [(0xD3FF, 0x01)] ∧
    (bulkCopy { params with bulkIntercept := true } 0xD3FF [0x01, 0x02] State.reset).snd = [⟨0x00, 0x02⟩] := by decide

theorem witness_OperandsOfTheListedModes :
    Mode.indy ∈ [Mode.abs, .absx, .absy, .zp, .zpx, .zpy, .indx, .indy] := by decide

theorem witness_UnlistedModesAreRefused :
    (Mode.ind ∈ [Mode.ind, .rel] ∧
      Instr.lda .ind ∈ [Instr.adc .ind, .sbc .ind, .and .ind, .ora .ind, .eor .ind, .bit .ind, .asl .ind, .lsr .ind,
        .rol .ind, .ror .ind, .cmp .ind, .cpx .ind, .cpy .ind, .inc .ind, .dec .ind, .lda .ind, .ldx .ind, .ldy .ind]) ∧
    (Mode.imm ∈ [Mode.imp, .imm, .ind, .acc, .rel] ∧ Instr.sta .imm ∈ [Instr.sta .imm, .stx .imm, .sty .imm]) ∧
    Mode.zp ≠ .abs ∧ Mode.zp ≠ .ind := by decide

theorem witness_WriteBackHitsTheAddressJustRead :
    Mode.zpx ∈ [Mode.abs, .absx, .zp, .zpx] ∧
    Mode.indy ∈ [Mode.imp, .imm, .absy, .zpy, .ind, .indx, .indy, .rel] := by decide

/-- One push at S = 0x00, and addresses beside both ends of the stack page. -/
theorem witness_RepeatedPushesClampAtTheStackBase :
    { State.reset with sp := 0x00 }.sp.toNat < [(0xBB : Byte)].length ∧
    ((0x00FF : Word).toNat < 0x0100 ∨ 0x01FF < (0x00FF : Word).toNat) ∧
    ((0x0200 : Word).toNat < 0x0100 ∨ 0x01FF < (0x0200 : Word).toNat) := by decide

/-! The row hypotheses of the result statements: the row stands in the list of the statement. -/

theorem witness_AdcAddsWithCarry : ((0x69, .imm) : Byte × Mode) ∈
    [(0x69, .imm), (0x65, .zp), (0x75, .zpx), (0x6D, .abs), (0x7D, .absx), (0x79, .absy), (0x61, .indx), (0x71, .indy)] := by
  decide
theorem witness_SbcSubtractsWithBorrow : ((0xF1, .indy) : Byte × Mode) ∈
    [(0xE9, .imm), (0xE5, .zp), (0xF5, .zpx), (0xED, .abs), (0xFD, .absx), (0xF9, .absy), (0xE1, .indx), (0xF1, .indy)] := by
  decide
theorem witness_LogicalInstructionsCombineIntoA :
    ((0x29, .imm) : Byte × Mode) ∈
      [(0x29, .imm), (0x25, .zp), (0x35, .zpx), (0x2D, .abs), (0x3D, .absx), (0x39, .absy), (0x21, .indx), (0x31, .indy)] ∧
    ((0x05, .zp) : Byte × Mode) ∈
      [(0x09, .imm), (0x05, .zp), (0x15, .zpx), (0x0D, .abs), (0x1D, .absx), (0x19, .absy), (0x01, .indx), (0x11, .indy)] ∧
    ((0x51, .indy) : Byte × Mode) ∈
      [(0x49, .imm), (0x45, .zp), (0x55, .zpx), (0x4D, .abs), (0x5D, .absx), (0x59, .absy), (0x41, .indx), (0x51, .indy)] := by
  decide
theorem witness_BitTestsTheOperand : ((0x2C, .abs) : Byte × Mode) ∈ [(0x24, .zp), (0x2C, .abs)] := by decide
/-- Accumulator mode, and a memory mode. -/
theorem witness_AslShiftsLeft :
    ((0x0A, .acc) : Byte × Mode) ∈ [(0x0A, .acc), (0x06, .zp), (0x16, .zpx), (0x0E, .abs), (0x1E, .absx)] ∧
    ((0x1E, .absx) : Byte × Mode) ∈ [(0x0A, .acc), (0x06, .zp), (0x16, .zpx), (0x0E, .abs), (0x1E, .absx)] ∧
    Mode.absx ≠ .acc := by decide
theorem witness_LsrRolRorShiftAndRotate :
    ((0x4A, .acc) : Byte × Mode) ∈ [(0x4A, .acc), (0x46, .zp), (0x56, .zpx), (0x4E, .abs), (0x5E, .absx)] ∧
    ((0x26, .zp) : Byte × Mode) ∈ [(0x2A, .acc), (0x26, .zp), (0x36, .zpx), (0x2E, .abs), (0x3E, .absx)] ∧
    ((0x76, .zpx) : Byte × Mode) ∈ [(0x6A, .acc), (0x66, .zp), (0x76, .zpx), (0x6E, .abs), (0x7E, .absx)] ∧
    Mode.zp ≠ .acc ∧ Mode.zpx ≠ .acc := by decide
theorem witness_ComparesSetFlagsOnly :
    ((0xD1, .indy) : Byte × Mode) ∈
      [(0xC9, .imm), (0xC5, .zp), (0xD5, .zpx), (0xCD, .abs), (0xDD, .absx), (0xD9, .absy), (0xC1, .indx), (0xD1, .indy)] ∧
    ((0xE0, .imm) : Byte × Mode) ∈ [(0xE0, .imm), (0xE4, .zp), (0xEC, .abs)] ∧
    ((0xCC, .abs) : Byte × Mode) ∈ [(0xC0, .imm), (0xC4, .zp), (0xCC, .abs)] := by decide
theorem witness_IncDecStepAMemoryByte :
    ((0xFE, .absx) : Byte × Mode) ∈ [(0xE6, .zp), (0xF6, .zpx), (0xEE, .abs), (0xFE, .absx)] ∧
    ((0xC6, .zp) : Byte × Mode) ∈ [(0xC6, .zp), (0xD6, .zpx), (0xCE, .abs), (0xDE, .absx)] ∧
    Mode.absx ≠ .acc ∧ Mode.zp ≠ .acc := by decide
theorem witness_LoadsReadIntoARegister :
    ((0xA9, .imm) : Byte × Mode) ∈
      [(0xA9, .imm), (0xA5, .zp), (0xB5, .zpx), (0xAD, .abs), (0xBD, .absx), (0xB9, .absy), (0xA1, .indx), (0xB1, .indy)] ∧
    ((0xB6, .zpy) : Byte × Mode) ∈ [(0xA2, .imm), (0xA6, .zp), (0xB6, .zpy), (0xAE, .abs), (0xBE, .absy)] ∧
    ((0xBC, .absx) : Byte × Mode) ∈ [(0xA0, .imm), (0xA4, .zp), (0xB4, .zpx), (0xAC, .abs), (0xBC, .absx)] := by decide
theorem witness_StoresWriteARegister :
    ((0x91, .indy) : Byte × Mode) ∈
      [(0x85, .zp), (0x95, .zpx), (0x8D, .abs), (0x9D, .absx), (0x99, .absy), (0x81, .indx), (0x91, .indy)] ∧
    ((0x96, .zpy) : Byte × Mode) ∈ [(0x86, .zp), (0x96, .zpy), (0x8E, .abs)] ∧
    ((0x94, .zpx) : Byte × Mode) ∈ [(0x84, .zp), (0x94, .zpx), (0x8C, .abs)] := by decide
theorem witness_BranchesTestOneFlag : ((0x70, .bvs, .v, true) : Byte × Instr × Flag × Bool) ∈
    [(0x90, .bcc, .c, false), (0xB0, .bcs, .c, true), (0xD0, .bne, .z, false), (0xF0, .beq, .z, true),
     (0x10, .bpl, .n, false), (0x30, .bmi, .n, true), (0x50, .bvc, .v, false), (0x70, .bvs, .v, true)] := by decide
theorem witness_ReturnsPopPcPlusOne : ((0x40, .rti) : Byte × Instr) ∈ [(0x60, .rts), (0x40, .rti)] := by decide
theorem witness_FlagInstructionsWriteOneFlag : ((0xB8, .clv, .v, false) : Byte × Instr × Flag × Bool) ∈
    [(0x18, .clc, .c, false), (0x38, .sec, .c, true), (0xD8, .cld, .d, false), (0xF8, .sed, .d, true),
     (0x58, .cli, .i, false), (0x78, .sei, .i, true), (0xB8, .clv, .v, false)] := by decide
theorem witness_PlaceholdersOnlyConsumeTheirBytes :
    (undocumented 0x02 = true ∧ 0x02 ∈ undocumentedNone) ∧ (undocumented 0xEB = true ∧ 0xEB ∈ undocumentedOne) ∧
    (undocumented 0x0C = true ∧ 0x0C ∈ undocumentedTwo) := by decide

/-- The state right after a JSR, with the lowest S from which neither push is clamped. -/
theorem witness_ReturnGoesToTheInstructionAfterTheCall :
    2 ≤ { State.reset with sp := 0x02 }.sp.toNat ∧
    exec .jsr { State.reset with sp := 0x02 } = .next (after params .jsr { State.reset with sp := 0x02 }) :=
  ⟨by decide, exec_eq_after _ _ rfl⟩

theorem witness_PlayAddressIsTheLittleEndianVector : (0x0001 : Word) ≠ 0x0000 := by decide

/-- PC at and beside the stop values. -/
theorem witness_DriverTestsPcBeforeEveryStep :
    { State.reset with pc := 0x0000 }.pc.toNat ≤ 1 ∧ { State.reset with pc := 0x0001 }.pc.toNat ≤ 1 ∧
    1 < { State.reset with pc := 0x0002 }.pc.toNat := by decide

/-- Both stop values as entries, and the lowest entry at which something runs: RTS, RTI and BRK. -/
theorem witness_ReturnAndBreakEndARun :
    (0x0000 : Word).toNat ≤ 1 ∧ (0x0001 : Word).toNat ≤ 1 ∧ 1 < (0x0002 : Word).toNat ∧
    (enterRun 0x0002 0x00 { State.reset with mem := [(0x0002, 0x60)] }).memRead 0x0002 = 0x60 ∧
    (enterRun 0x0002 0x00 { State.reset with mem := [(0x0002, 0x40)] }).memRead 0x0002 = 0x40 ∧
    (enterRun 0x0002 0x00 State.reset).memRead 0x0002 = 0x00 := by decide

theorem witness_ARunHasAtMostOneEnd :
    RunEnds params 0x1000 0x00 State.reset { State.reset with sp := 0xFD, pc := 0x0000 } ∧
    RunEnds otherParams 0x1000 0x00 (base [0x0C, 0x60]) { base [0x0C, 0x60] with pc := 0x0001 } :=
  ⟨⟨1, by decide⟩, ⟨2, by decide⟩⟩

theorem witness_AJumpToItselfNeverEnds :
    1 < (base [0x4C, 0x00, 0x10]).pc.toNat ∧
    (base [0x4C, 0x00, 0x10]).memRead (base [0x4C, 0x00, 0x10]).pc = 0x4C ∧
    wordAt (base [0x4C, 0x00, 0x10]) ((base [0x4C, 0x00, 0x10]).pc + 1) = (base [0x4C, 0x00, 0x10]).pc.toNat := by decide

end Sys2Proof.Tests
end

section
/-! SUPPORT. The codec in both directions: the opcode byte of an instruction decodes to it and to nothing else
(R57, R61), and what the byte decoder reads. -/

namespace Sys2Proof

open Sys2Proof.Laws

/-- The per-instruction family `OpcodeRoundTrip`, gathered into one statement. -/
theorem opcodeRoundTrip (i : Instr) : OpcodeRoundTrip.Statement i := by
  cases i with
  | adc m => exact OpcodeRoundTrip.adc m
  | sbc m => exact OpcodeRoundTrip.sbc m
  | and m => exact OpcodeRoundTrip.and m
  | ora m => exact OpcodeRoundTrip.ora m
  | eor m => exact OpcodeRoundTrip.eor m
  | bit m => exact OpcodeRoundTrip.bit m
  | asl m => exact OpcodeRoundTrip.asl m
  | lsr m => exact OpcodeRoundTrip.lsr m
  | rol m => exact OpcodeRoundTrip.rol m
  | ror m => exact OpcodeRoundTrip.ror m
  | cmp m => exact OpcodeRoundTrip.cmp m
  | cpx m => exact OpcodeRoundTrip.cpx m
  | cpy m => exact OpcodeRoundTrip.cpy m
  | inc m => exact OpcodeRoundTrip.inc m
  | dec m => exact OpcodeRoundTrip.dec m
  | jmp m => exact OpcodeRoundTrip.jmp m
  | lda m => exact OpcodeRoundTrip.lda m
  | ldx m => exact OpcodeRoundTrip.ldx m
  | ldy m => exact OpcodeRoundTrip.ldy m
  | sta m => exact OpcodeRoundTrip.sta m
  | stx m => exact OpcodeRoundTrip.stx m
  | sty m => exact OpcodeRoundTrip.sty m
  | xxx op => exact OpcodeRoundTrip.xxx op
  | _ => exact fun _ => ⟨_, rfl, rfl⟩

/-- The two maps agree on every opcode byte: a finite check of the grid of R61 against the Encodings lines. -/
theorem opcodeOf_decode (op : Byte) : opcodeOf (decode op) = some op := by
  revert op
  decide

/-- An instruction with an opcode byte stands in the opcode map (R61). -/
theorem wf_of_opcodeOf {i : Instr} {op : Byte} (h : opcodeOf i = some op) : i.wf = true := by
  cases i
  case adc m | sbc m | and m | ora m | eor m | bit m | asl m | lsr m | rol m | ror m | cmp m | cpx m | cpy m | inc m
      | dec m | jmp m | lda m | ldx m | ldy m | sta m | stx m | sty m =>
    cases m <;> first
      | rfl
      | cases h
  case xxx op' =>
    by_contra hu
    rw [opcodeOf, if_neg (show ¬undocumented op' = true from hu)] at h
    cases h
  all_goals rfl

/-- Every opcode byte decodes to an instruction of the opcode map (R63). -/
theorem wf_decode (op : Byte) : (decode op).wf = true := wf_of_opcodeOf (opcodeOf_decode op)

/-- A byte decodes to an instruction exactly if it is that instruction's opcode byte (R57, R61). -/
theorem decode_eq_iff {op : Byte} {i : Instr} : decode op = i ↔ opcodeOf i = some op := by
  constructor
  · rintro rfl
    exact opcodeOf_decode op
  · intro h
    obtain ⟨k, hk, hd⟩ := opcodeRoundTrip i (wf_of_opcodeOf h)
    rw [hk, Option.some.injEq] at h
    exact h ▸ hd

/-- Looking a mode up in an Encodings line finds exactly the opcode bytes the line lists for it. -/
theorem lookup_eq_some_iff_mem {l : List (Mode × Byte)} (hl : (l.map Prod.fst).Nodup) {m : Mode} {op : Byte} :
    l.lookup m = some op ↔ (op, m) ∈ l.map Prod.swap := by
  induction l with
  | nil => simp
  | cons c rest ih =>
    obtain ⟨n, k⟩ := c
    obtain ⟨hn, hr⟩ := List.nodup_cons.mp hl
    by_cases h : m = n
    · subst h
      have hk : (m, op) ∉ rest := fun hc => hn (List.mem_map.mpr ⟨_, hc, rfl⟩)
      simp [List.lookup, hk, eq_comm]
    · rw [List.lookup_cons, beq_false_of_ne h]
      simp [ih hr, h]

/-- The rows of a kind in the opcode map are those of its Encodings line. -/
theorem decode_eq_iff_mem_rows {mk : Mode → Instr} {l : List (Mode × Byte)} (hmk : ∀ m, opcodeOf (mk m) = l.lookup m)
    (hl : (l.map Prod.fst).Nodup) (op : Byte) (m : Mode) : decode op = mk m ↔ (op, m) ∈ l.map Prod.swap := by
  rw [decode_eq_iff, hmk, lookup_eq_some_iff_mem hl]

/-- The byte decoder reads the instruction of the first byte (R57). -/
theorem decodeBytes_cons_ok {p : Params} {op : Byte} {tail : List Byte} {d : Decoded}
    (h : decodeBytes p (op :: tail) = .ok d) : d.instr = decode op := by
  rw [decodeBytes] at h
  split at h
  · cases h
  · cases h
    rfl

/-- The byte decoder reads an opcode byte and its operand bytes, and leaves whatever follows (R55). -/
theorem decodeBytes_cons_append {p : Params} {op : Byte} {operands : List Byte}
    (h : operands.length = (decode op).operandBytes p) (rest : List Byte) :
    decodeBytes p (op :: operands ++ rest) = .ok ⟨decode op, operands, rest⟩ := by
  rw [List.cons_append, decodeBytes, ← h, if_neg (by simp), List.take_left, List.drop_left]

/-- The bytes of an instruction with an opcode byte and the right number of operand bytes (R55). -/
theorem encode_eq_some {p : Params} {i : Instr} {op : Byte} {operands : List Byte} (hop : opcodeOf i = some op)
    (h : operands.length = i.operandBytes p) : encode p i operands = some (op :: operands) := by
  rw [encode, if_pos h, hop]
  rfl

end Sys2Proof
end

section
/-! PROOF. The codec inverts itself; the step decodes, runs and completes. -/

namespace Sys2Proof.Machine

/-- Settles O3: the opcode byte of a well-formed instruction decodes to it, so the decoder takes the encoder's operand
bytes. -/
theorem decodeInvertsEncode : Obligations.DecodeInvertsEncode := by
  intro p i operands rest hwf hlen
  obtain ⟨op, hop, hdec⟩ := opcodeRoundTrip i hwf
  subst hdec
  exact ⟨op :: operands, encode_eq_some hop hlen, by rw [List.length_cons, hlen, Instr.length, Nat.add_comm],
    decodeBytes_cons_append hlen rest⟩

/-- Every step of every state completes, for any parameters: what is decoded stands in the opcode map (R63, R72). -/
theorem stepWith_completes (p : Params) (s : State) : ∃ t, stepWith p s = .next t :=
  ⟨_, execWith_eq_after p _ _ (runs_of_wf (wf_decode _))⟩

theorem step_completes (s : State) : s.Completes := by
  rw [State.Completes, ← stepWith_params]
  exact stepWith_completes params s

theorem core_run_completes (n : Nat) (s : State) : ∃ t : State, Host.Core.run core n s = .next t := by
  induction n generalizing s with
  | zero => exact ⟨s, rfl⟩
  | succ n ih =>
    obtain ⟨u, hu⟩ := step_completes s
    obtain ⟨t, ht⟩ := ih u
    have hstep : Host.Core.step core s = .next u := hu
    refine ⟨t, ?_⟩
    simpa only [Host.Core.run, hstep] using ht

/-- Settles O7, by induction on the number of steps. -/
theorem everyStepCompletes : Obligations.EveryStepCompletes :=
  ⟨step_completes, stepWith_completes, core_run_completes⟩

/-- Only ASL and the placeholder depend on a parameter (R11, R109, R163). -/
theorem execWith_eq_exec (p : Params) {i : Instr} (hasl : ∀ m, i ≠ .asl m) (hxxx : ∀ op, i ≠ .xxx op) (s : State) :
    execWith p i s = exec i s := by
  cases i
  case asl m => exact absurd rfl (hasl m)
  case xxx op => exact absurd rfl (hxxx op)
  all_goals rfl

/-- A step whose bytes decode to an instruction with its operand bytes runs that instruction (R71). -/
theorem stepWith_of_decodeBytes {p q : Params} {s : State} {tail : List Byte} {d : Decoded}
    (h : decodeBytes q (s.memRead s.pc :: tail) = .ok d) :
    d.instr.wf = true ∧ stepWith p s = execWith p d.instr { s with pc := s.pc + 1 } := by
  rw [decodeBytes_cons_ok h]
  exact ⟨wf_decode _, stepWith_eq p s⟩

/-- Settles O6. -/
theorem stepRunsTheDecodedInstruction : Obligations.StepRunsTheDecodedInstruction := by
  refine fun s => ⟨step_eq s, fun d hd => ?_, (stepWith_params s).symm, fun p => ⟨stepWith_eq p s,
    fun d hd => stepWith_of_decodeBytes hd, fun i hasl hxxx => execWith_eq_exec p hasl hxxx s⟩⟩
  rw [← stepWith_params, ← execWith_params]
  exact stepWith_of_decodeBytes hd

end Sys2Proof.Machine
end

section
/-! PROOF. The two instructions that depend on a parameter: the placeholder (R163) and ASL (R109). -/

namespace Sys2Proof.Machine

/-- The default lengths are those of R64's three rows (D3). -/
theorem undocLen_of_mem_undocumentedNone : ∀ op ∈ undocumentedNone, params.undocLen op = 0 := by decide

theorem undocLen_of_mem_undocumentedOne : ∀ op ∈ undocumentedOne, params.undocLen op = 1 := by decide

theorem undocLen_of_mem_undocumentedTwo : ∀ op ∈ undocumentedTwo, params.undocLen op = 2 := by decide

/-- An undocumented opcode is the only byte that decodes to its placeholder (R63). -/
theorem decode_eq_xxx_iff {op : Byte} (h : undocumented op = true) (k : Byte) : decode k = .xxx op ↔ k = op := by
  rw [decode_eq_iff, opcodeOf, if_pos h, Option.some.injEq, eq_comm]

/-- Settles O50. -/
theorem placeholdersOnlyConsumeTheirBytes : Obligations.PlaceholdersOnlyConsumeTheirBytes := fun op h =>
  ⟨decode_eq_xxx_iff h, fun p s => execWith_eq_after p (.xxx op) s rfl, fun s => (execWith_params _ s).symm,
    undocLen_of_mem_undocumentedNone op, undocLen_of_mem_undocumentedOne op, undocLen_of_mem_undocumentedTwo op⟩

/-- The rows of ASL (R109). -/
theorem decode_eq_asl_iff (op : Byte) (m : Mode) : decode op = .asl m ↔
    (op, m) ∈ [(0x0A, .acc), (0x06, .zp), (0x16, .zpx), (0x0E, .abs), (0x1E, .absx)] :=
  decode_eq_iff_mem_rows (l := [(.acc, 0x0A), (.zp, 0x06), (.zpx, 0x16), (.abs, 0x0E), (.absx, 0x1E)])
    (fun _ => rfl) (by decide) op m

/-- Settles O34: ASL is a read-modify-write whose result and flags are those of `shiftLeft`. -/
theorem aslShiftsLeft : Obligations.AslShiftsLeft := by
  refine ⟨fun p => modifiesOperand_of (fun v _ => (shiftLeft p.aslZ v).r) (fun v _ => shiftFlags (shiftLeft p.aslZ v))
    decode_eq_asl_iff (by decide) (fun _ _ => rfl) (fun v _ => shiftLeft_r _ v)
    (fun _ _ _ => rfl) (fun _ _ s k w => shiftFlags_memWrite _ s k w) fun v c s f => ?_,
    fun m s => (execWith_params _ s).symm⟩
  have hz : (shiftLeft p.aslZ v).z = match p.aslZ with
      | .result8 => decide (2 * v.toNat % 256 = 0)
      | .intermediate9 => decide (2 * v.toNat = 0) := by
    cases p.aslZ with
    | result8 => exact shiftLeft_z_result8 v
    | intermediate9 => exact shiftLeft_z_intermediate9 v
  have hn : (shiftLeft p.aslZ v).r.toNat = 2 * v.toNat % 256 := by
    rw [shiftLeft_r, BitVec.toNat_ofNat, Nat.mod_mod]
  rw [shiftFlags_flags (shiftLeft p.aslZ v) s f, hn, shiftLeft_c, hz]
  cases f <;> rfl

end Sys2Proof.Machine
end

section
/-! PROOF. The memory frame of R33 and R46: the branches, pops and returns write nothing,
so only the listed writers do. -/

namespace Sys2Proof.Machine

@[simp] theorem branch_mem (cond : Bool) (s : State) : (branch cond s).mem = s.mem := by rw [branch_eq]; rfl
@[simp] theorem branch_snd (cond : Bool) (s : State) : (branch cond s).snd = s.snd := by rw [branch_eq]; rfl
@[simp] theorem pop_mem (s : State) : (pop s).2.mem = s.mem := by rw [pop_eq]; rfl
@[simp] theorem pop_snd (s : State) : (pop s).2.snd = s.snd := by rw [pop_eq]; rfl
@[simp] theorem returnFromStack_mem (s : State) : (returnFromStack s).mem = s.mem := by rw [returnFromStack_eq]; rfl
@[simp] theorem returnFromStack_snd (s : State) : (returnFromStack s).snd = s.snd := by rw [returnFromStack_eq]; rfl

/-- An instruction that makes no bus write keeps the memory list and the events (R16, R33, R46). -/
theorem after_mem_snd (p : Params) {i : Instr} (h : i.writesBus = false) (s : State) :
    (after p i s).mem = s.mem ∧ (after p i s).snd = s.snd := by
  cases i
  case sta m | stx m | sty m | pha | php | jsr => cases h
  case asl m | lsr m | rol m | ror m | inc m | dec m =>
    have hacc : m = .acc := by simpa [Instr.writesBus] using h
    subst hacc
    exact ⟨rfl, rfl⟩
  case jmp m => cases m <;> exact ⟨rfl, rfl⟩
  all_goals simp [after]

/-- Settles O11. -/
theorem nonStoringInstructionsLeaveMemory : Obligations.NonStoringInstructionsLeaveMemory := by
  intro i s t h ht
  obtain ⟨-, rfl⟩ := exec_next ht
  obtain ⟨hmem, hsnd⟩ := after_mem_snd params h s
  exact ⟨fun b => by rw [State.memRead, hmem, State.memRead], hsnd⟩

end Sys2Proof.Machine
end

section
/-! PROOF. The flag table of R25: each effect on the status register, said once as what it makes of one flag, and the
table read off from these. -/

namespace Sys2Proof.Machine

/-! ### One flag set before or after an effect -/

/-- What `k` makes of flag `f`: if `w`, it overwrites it, whatever it holds; if not, it passes it on untouched; and
nothing else that `k` does depends on it. -/
def ActsOnFlag (f : Flag) (w : Bool) (k : State → State) : Prop :=
  ∀ s b, k (s.setFlag f b) = if w = true then k s else (k s).setFlag f b

theorem ActsOnFlag.comp {f : Flag} {v w : Bool} {k l : State → State} (hl : ActsOnFlag f w l)
    (hk : ActsOnFlag f v k) : ActsOnFlag f (v || w) (fun s => l (k s)) := by
  intro s b
  cases v with
  | true => simp [hk s b]
  | false => simp [hk s b, hl (k s) b]

theorem ActsOnFlag.of_eq {f : Flag} {v w : Bool} {k : State → State} (h : ActsOnFlag f w k) (e : w = v) :
    ActsOnFlag f v k := e ▸ h

theorem State.setFlag_self (s : State) (f : Flag) : s.setFlag f (s.flag f) = s := by
  have hp : putFlag s.p f (s.flag f) = s.p := byte_ext_flags fun g => by
    rw [getFlag_putFlag]
    split_ifs with h
    · rw [h, State.flag_def]
    · rfl
  rw [State.setFlag, hp]
  rfl

/-- A flag that an effect passes on is unchanged. -/
theorem ActsOnFlag.keeps {f : Flag} {k : State → State} (h : ActsOnFlag f false k) (s : State) :
    (k s).flag f = s.flag f := by
  have hs := h s (s.flag f)
  rw [State.setFlag_self, if_neg Bool.false_ne_true] at hs
  rw [hs, State.flag_setFlag, if_pos rfl]

theorem actsOnFlag_setFlag (f g : Flag) (c : Bool) : ActsOnFlag f (f == g) (fun s => s.setFlag g c) := by
  intro s b
  by_cases h : f = g
  · subst h
    simp [State.setFlag, State.setP]
  · simp [State.setFlag, State.setP, h, putFlag_comm s.p h]

theorem actsOnFlag_setZN (f : Flag) (v : Byte) : ActsOnFlag f (f == .z || f == .n) (setZN v) :=
  (actsOnFlag_setFlag f .n _).comp (actsOnFlag_setFlag f .z _)

theorem actsOnFlag_shiftFlags (f : Flag) (q : Shifted) :
    ActsOnFlag f (f == .c || f == .n || f == .z) (shiftFlags q) :=
  (actsOnFlag_setFlag f .z _).comp ((actsOnFlag_setFlag f .n _).comp (actsOnFlag_setFlag f .c _))

theorem actsOnFlag_compareFlags (f : Flag) (r m : Byte) :
    ActsOnFlag f (f == .z || f == .n || f == .c) (compareFlags r m) :=
  (actsOnFlag_setFlag f .c _).comp ((actsOnFlag_setFlag f .n _).comp (actsOnFlag_setFlag f .z _))

theorem actsOnFlag_bitFlags (f : Flag) (z n v : Bool) :
    ActsOnFlag f (f == .z || f == .n || f == .v) (fun s => ((s.setFlag .z z).setFlag .n n).setFlag .v v) :=
  (actsOnFlag_setFlag f .v v).comp ((actsOnFlag_setFlag f .n n).comp (actsOnFlag_setFlag f .z z))

theorem actsOnFlag_addToA {f : Flag} (hf : f ≠ .c) (m : Byte) :
    ActsOnFlag f (f == .c || f == .z || f == .n || f == .v) (addToA m) := by
  intro s b
  have hc : (s.setFlag f b).flag .c = s.flag .c := by rw [State.flag_setFlag, if_neg hf.symm]
  have flags := (actsOnFlag_setFlag f .v (add8 s.a m (s.flag .c)).v).comp
    ((actsOnFlag_setFlag f .n (add8 s.a m (s.flag .c)).n).comp
      ((actsOnFlag_setFlag f .z (add8 s.a m (s.flag .c)).z).comp
        (actsOnFlag_setFlag f .c (add8 s.a m (s.flag .c)).c)))
  unfold addToA
  rw [State.setFlag_a, hc]
  exact flags (s.setA _) b

/-! ### What does not look at a flag -/

section
variable (s : State) (f : Flag) (b : Bool)

@[simp] theorem State.setFlag_setA (v : Byte) : (s.setFlag f b).setA v = (s.setA v).setFlag f b := rfl
@[simp] theorem State.setFlag_setX (v : Byte) : (s.setFlag f b).setX v = (s.setX v).setFlag f b := rfl
@[simp] theorem State.setFlag_setY (v : Byte) : (s.setFlag f b).setY v = (s.setY v).setFlag f b := rfl
@[simp] theorem State.setFlag_setSp (v : Byte) : (s.setFlag f b).setSp v = (s.setSp v).setFlag f b := rfl
@[simp] theorem State.setFlag_setPc (v : Word) : (s.setFlag f b).setPc v = (s.setPc v).setFlag f b := rfl
@[simp] theorem State.setFlag_setP (v : Byte) : (s.setFlag f b).setP v = s.setP v := rfl

@[simp] theorem nextPc_setFlag (m : Mode) : nextPc m (s.setFlag f b) = nextPc m s := rfl
@[simp] theorem eaOf_setFlag (m : Mode) : eaOf m (s.setFlag f b) = eaOf m s := eaOf_setP ..
@[simp] theorem operandOf_setFlag (m : Mode) : operandOf m (s.setFlag f b) = operandOf m s := operandOf_setP ..

@[simp] theorem memWrite_setFlag (k : Word) (v : Byte) :
    (s.setFlag f b).memWrite k v = (s.memWrite k v).setFlag f b := by
  simp [State.setFlag, State.memWrite_setP]

@[simp] theorem storeToLast_setFlag (m : Mode) (v : Byte) :
    storeToLast m v (s.setFlag f b) = (storeToLast m v s).setFlag f b := by
  simp [State.setFlag, storeToLast_setP]

@[simp] theorem push_setFlag (v : Byte) : push v (s.setFlag f b) = (push v s).setFlag f b := by
  simp [State.setFlag, push_setP]

@[simp] theorem pop_setFlag : pop (s.setFlag f b) = ((pop s).1, (pop s).2.setFlag f b) := by
  simp [pop_eq]

@[simp] theorem returnFromStack_setFlag :
    returnFromStack (s.setFlag f b) = (returnFromStack s).setFlag f b := by
  simp [returnFromStack_eq]

@[simp] theorem branch_setFlag (cond : Bool) : branch cond (s.setFlag f b) = (branch cond s).setFlag f b := by
  simp [branch_eq]

end

/-! ### The table -/

/-- An instruction not listed as a reader of a flag overwrites it if it is listed as a writer, passes it on if not, and
does the rest whatever the flag holds (R25). -/
theorem actsOnFlag_after (p : Params) {i : Instr} {f : Flag} (h : i.readsFlag f = false) :
    ActsOnFlag f (i.writesFlag f) (after p i) := by
  cases i
  case and m | ora m | eor m | inc m | dec m | inx | iny | dex | dey | pla | tsx | tax | tay | txa | tya
      | lda m | ldx m | ldy m =>
    refine .of_eq (w := f == .z || f == .n) (fun s b => ?_) (by cases f <;> rfl)
    simp [after, actsOnFlag_setZN f _ _ b, afterModify]
  case asl m | lsr m =>
    refine .of_eq (w := f == .c || f == .n || f == .z) (fun s b => ?_) (by cases f <;> rfl)
    simp [after, actsOnFlag_shiftFlags f _ _ b, afterModify]
  case rol m | ror m =>
    have hc : .c ≠ f := by rintro rfl; cases h
    refine .of_eq (w := f == .c || f == .n || f == .z) (fun s b => ?_) (by cases f <;> rfl)
    simp [after, actsOnFlag_shiftFlags f _ _ b, afterModify, hc]
  case cmp m | cpx m | cpy m =>
    refine .of_eq (w := f == .z || f == .n || f == .c) (fun s b => ?_) (by cases f <;> rfl)
    simp [after, actsOnFlag_compareFlags f _ _ _ b]
  case adc m | sbc m =>
    have hc : f ≠ .c := by rintro rfl; cases h
    refine .of_eq (w := f == .c || f == .z || f == .n || f == .v) (fun s b => ?_) (by cases f <;> rfl)
    simp [after, actsOnFlag_addToA hc _ _ b]
  case bit m =>
    refine .of_eq (w := f == .z || f == .n || f == .v) (fun s b => ?_) (by cases f <;> rfl)
    simp [after, actsOnFlag_bitFlags f _ _ _ _ b]
  case clc | sec =>
    exact .of_eq (actsOnFlag_setFlag f .c _) (by cases f <;> rfl)
  case cld | sed =>
    exact .of_eq (actsOnFlag_setFlag f .d _) (by cases f <;> rfl)
  case cli | sei =>
    exact .of_eq (actsOnFlag_setFlag f .i _) (by cases f <;> rfl)
  case clv =>
    exact .of_eq (actsOnFlag_setFlag f .v _) (by cases f <;> rfl)
  case plp =>
    refine .of_eq (w := true) (fun s b => ?_) (by cases f <;> rfl)
    simp [after]
  case php => cases f <;> cases h
  case bcc | bcs =>
    have hc : .c ≠ f := by rintro rfl; cases h
    refine .of_eq (w := false) (fun s b => ?_) (by cases f <;> rfl)
    simp [after, hc]
  case bne | beq =>
    have hz : .z ≠ f := by rintro rfl; cases h
    refine .of_eq (w := false) (fun s b => ?_) (by cases f <;> rfl)
    simp [after, hz]
  case bpl | bmi =>
    have hn : .n ≠ f := by rintro rfl; cases h
    refine .of_eq (w := false) (fun s b => ?_) (by cases f <;> rfl)
    simp [after, hn]
  case bvc | bvs =>
    have hv : .v ≠ f := by rintro rfl; cases h
    refine .of_eq (w := false) (fun s b => ?_) (by cases f <;> rfl)
    simp [after, hv]
  case jmp m =>
    refine .of_eq (w := false) (fun s b => ?_) (by cases f <;> rfl)
    cases m <;> rfl
  case jsr | rts | rti | pha | txs | brk | nop | xxx | sta m | stx m | sty m =>
    refine .of_eq (w := false) (fun s b => ?_) (by cases f <;> rfl)
    simp [after]

/-- The instructions that read a flag they do not write, the branches and PHP, write no flag (R25). -/
theorem after_p_of_reads (p : Params) {i : Instr} {f : Flag} (hr : i.readsFlag f = true)
    (hw : i.writesFlag f = false) (s : State) : (after p i s).p = s.p := by
  cases i
  case bcc | bcs | bne | beq | bpl | bmi | bvc | bvs => simp [after, branch_eq]
  case php => simp [after]
  case adc m | sbc m | rol m | ror m =>
    cases f
    case c => cases hw
    all_goals cases hr
  all_goals exact absurd hr (by cases f <;> simp [Instr.readsFlag])

/-- An instruction not listed as a writer of a flag keeps it (R25). -/
theorem after_flag (p : Params) {i : Instr} {f : Flag} (h : i.writesFlag f = false) (s : State) :
    (after p i s).flag f = s.flag f := by
  cases hr : i.readsFlag f with
  | false => exact ((actsOnFlag_after p hr).of_eq h).keeps s
  | true => rw [State.flag_def, after_p_of_reads p hr h, State.flag_def]

/-- Settles O10. -/
theorem flagsFollowTheirWritersAndReaders : Obligations.FlagsFollowTheirWritersAndReaders := by
  intro i s t f ht
  obtain ⟨hrun, rfl⟩ := exec_next ht
  refine ⟨fun hw => after_flag params hw s, fun hr b => ?_⟩
  rw [exec_eq_after i _ hrun, actsOnFlag_after params hr s b]

end Sys2Proof.Machine
end

section
/-! PROOF. The canonical form of memory: an instruction that makes no bus write keeps the list of cells (R33, R46), and
every bus write, push and bulk store keeps its form. -/

namespace Sys2Proof.Machine

/-- Every instruction keeps the canonical form of memory, for any parameters. -/
theorem after_wf (p : Params) (i : Instr) {s : State} (h : s.mem.wf) : (after p i s).mem.wf := by
  cases hw : i.writesBus with
  | false => rwa [(after_mem_snd p hw s).1]
  | true =>
    cases i
    case sta m | stx m | sty m => exact State.memWrite_wf (s := s.setPc (nextPc m s)) h _ _
    case asl m | lsr m | rol m | ror m | inc m | dec m => exact storeToLast_wf m _ h
    case pha | php => exact push_wf h _
    case jsr => exact push_wf (push_wf h _) _
    all_goals cases hw

theorem stepWith_wf {p : Params} {s t : State} (h : s.Inv) (ht : stepWith p s = .next t) : t.Inv := by
  rw [stepWith_eq] at ht
  obtain ⟨-, rfl⟩ := execWith_next ht
  exact after_wf p _ h

/-- Settles O16: every instruction keeps the canonical form, and so does the opcode fetch before it. -/
theorem stepKeepsMemoryCanonical : Obligations.StepKeepsMemoryCanonical := by
  refine ⟨fun s t h ht => ?_, fun p s t h ht => stepWith_wf h ht⟩
  rw [← stepWith_params] at ht
  exact stepWith_wf h ht

/-- Settles O15. -/
theorem resetMemoryIsCanonical : Obligations.ResetMemoryIsCanonical := Memory.wf_nil

theorem bulkCopy_wf {s : State} (h : s.mem.wf) (p : Params) (dest : Word) (bytes : List Byte) :
    (bulkCopy p dest bytes s).mem.wf := by
  unfold bulkCopy
  split_ifs
  · exact bulkStore_wf h p dest bytes
  · exact h

/-- Settles O17: the operations that touch memory are bus writes, pushes and bulk stores. -/
theorem hostOperationsKeepMemoryCanonical : Obligations.HostOperationsKeepMemoryCanonical := by
  intro p op s h
  cases op with
  | reset | resetTo | readByte => exact h
  | runSubroutine pc a => exact push_wf (push_wf (s := resetTo pc a s) h _) _
  | writeByte addr value => exact State.memWrite_wf h addr value
  | bulkCopy dest bytes => exact bulkCopy_wf h p dest bytes
  | bulkFill dest value len =>
    rw [HostOp.apply, bulkFill_eq_bulkCopy]
    exact bulkCopy_wf h p dest _

end Sys2Proof.Machine
end

section
/-! PROOF. The sound-chip trace over a step: only a bus write emits, and it emits at most one event (R35, R36). -/

namespace Sys2Proof.Machine

/-- The events of `t` are those of `s`, followed by at most one. -/
def AppendsAtMostOneEvent (s t : State) : Prop := ∃ events, t.snd = s.snd ++ events ∧ events.length ≤ 1

theorem AppendsAtMostOneEvent.of_snd_eq {s t : State} (h : t.snd = s.snd) : AppendsAtMostOneEvent s t :=
  ⟨[], by rw [h, List.append_nil], Nat.zero_le 1⟩

theorem memWrite_appendsAtMostOneEvent (s : State) (k : Word) (v : Byte) :
    AppendsAtMostOneEvent s (s.memWrite k v) :=
  ⟨_, s.memWrite_snd k v, by split_ifs <;> simp⟩

theorem storeToLast_appendsAtMostOneEvent (m : Mode) (v : Byte) (s : State) :
    AppendsAtMostOneEvent s (storeToLast m v s) := by
  rcases storeToLast_cases m v s with ⟨-, e⟩ | ⟨ea, -, e⟩ | ⟨-, -, e⟩ <;> rw [e]
  · exact .of_snd_eq rfl
  · exact memWrite_appendsAtMostOneEvent s ea v
  · exact .of_snd_eq rfl

/-- Every instruction appends at most one event: a push emits none, and the others write the bus at most once
(R74, R97, R107). -/
theorem after_appendsAtMostOneEvent (p : Params) (i : Instr) (s : State) : AppendsAtMostOneEvent s (after p i s) := by
  cases hw : i.writesBus with
  | false => exact .of_snd_eq (after_mem_snd p hw s).2
  | true =>
    cases i
    case sta m | stx m | sty m => exact memWrite_appendsAtMostOneEvent (s.setPc (nextPc m s)) _ _
    case asl m | lsr m | rol m | ror m | inc m | dec m =>
      exact storeToLast_appendsAtMostOneEvent m _ (s.setPc (nextPc m s))
    case pha | php | jsr => exact .of_snd_eq (by simp [after])
    all_goals cases hw

theorem stepWith_appendsAtMostOneEvent {p : Params} {s t : State} (ht : stepWith p s = .next t) :
    AppendsAtMostOneEvent s t := by
  rw [stepWith_eq] at ht
  obtain ⟨-, rfl⟩ := execWith_next ht
  exact after_appendsAtMostOneEvent p _ (s.setPc (s.pc + 1))

/-- Settles O19. -/
theorem stepAppendsAtMostOneEvent : Obligations.StepAppendsAtMostOneEvent := by
  refine ⟨fun s t ht => ?_, fun p s t ht => stepWith_appendsAtMostOneEvent ht⟩
  rw [← stepWith_params] at ht
  exact stepWith_appendsAtMostOneEvent ht

end Sys2Proof.Machine
end

section
/-! PROOF. The register frame of R19 to R21: each register changes only by its listed writers. -/

namespace Sys2Proof.Machine

@[simp] theorem branch_a (cond : Bool) (s : State) : (branch cond s).a = s.a := by rw [branch_eq]; rfl
@[simp] theorem branch_x (cond : Bool) (s : State) : (branch cond s).x = s.x := by rw [branch_eq]; rfl
@[simp] theorem branch_y (cond : Bool) (s : State) : (branch cond s).y = s.y := by rw [branch_eq]; rfl
@[simp] theorem branch_sp (cond : Bool) (s : State) : (branch cond s).sp = s.sp := by rw [branch_eq]; rfl
@[simp] theorem pop_a (s : State) : (pop s).2.a = s.a := by rw [pop_eq]; rfl
@[simp] theorem pop_x (s : State) : (pop s).2.x = s.x := by rw [pop_eq]; rfl
@[simp] theorem pop_y (s : State) : (pop s).2.y = s.y := by rw [pop_eq]; rfl
@[simp] theorem returnFromStack_a (s : State) : (returnFromStack s).a = s.a := by rw [returnFromStack_eq]; rfl
@[simp] theorem returnFromStack_x (s : State) : (returnFromStack s).x = s.x := by rw [returnFromStack_eq]; rfl
@[simp] theorem returnFromStack_y (s : State) : (returnFromStack s).y = s.y := by rw [returnFromStack_eq]; rfl

/-- A is kept by every instruction but its writers; a read-modify-write writes it in accumulator mode only (R19). -/
theorem after_a (p : Params) {i : Instr} (h : i.writesA = false) (s : State) : (after p i s).a = s.a := by
  cases i
  case adc | sbc | and | ora | eor | lda | pla | txa | tya => cases h
  case asl m | lsr m | rol m | ror m | inc m | dec m =>
    have hacc : m ≠ .acc := by rintro rfl; cases h
    simp [after, afterModify, storeToLast_a hacc]
  case jmp m => cases m <;> rfl
  all_goals simp [after]

/-- X is kept by every instruction but its writers (R20). -/
theorem after_x (p : Params) {i : Instr} (h : i.writesX = false) (s : State) : (after p i s).x = s.x := by
  cases i
  case ldx | inx | dex | tax | tsx => cases h
  case jmp m => cases m <;> rfl
  all_goals simp [after, afterModify]

/-- Y is kept by every instruction but its writers (R20). -/
theorem after_y (p : Params) {i : Instr} (h : i.writesY = false) (s : State) : (after p i s).y = s.y := by
  cases i
  case ldy | iny | dey | tay => cases h
  case jmp m => cases m <;> rfl
  all_goals simp [after, afterModify]

/-- S is kept by every instruction but TXS, the pushes and the pops (R21). -/
theorem after_sp (p : Params) {i : Instr} (h : i.writesS = false) (s : State) : (after p i s).sp = s.sp := by
  cases i
  case txs | pha | php | pla | plp | jsr | rts | rti => cases h
  case jmp m => cases m <;> rfl
  all_goals simp [after, afterModify]

/-- Settles O9. -/
theorem registersChangeOnlyByTheirWriters : Obligations.RegistersChangeOnlyByTheirWriters := by
  intro i s t ht
  obtain ⟨-, rfl⟩ := exec_next ht
  exact ⟨fun h => after_a params h s, fun h => after_x params h s, fun h => after_y params h s,
    fun h => after_sp params h s⟩

end Sys2Proof.Machine
end

section
/-! PROOF. The layout of P (R24) and what the reset operations leave (R32, R194 to R196). -/

namespace Sys2Proof.Machine

/-- Settles O5: a number below 256 is the binary number of its eight bits. -/
theorem statusByteIsItsFlags : Obligations.StatusByteIsItsFlags := by
  intro p
  have bits : Nat.ofBits (fun i : Fin 8 => p.toNat.testBit i) = p.toNat := by
    rw [Nat.ofBits_testBit, Nat.mod_eq_of_lt p.isLt]
  simp only [Nat.ofBits, Fin.foldr_succ, Fin.foldr_zero, Fin.val_succ, Fin.val_eq_zero, zero_add,
    Fin.coe_ofNat_eq_mod, Nat.zero_mod, Nat.reduceAdd, mul_zero] at bits
  simp only [getFlag, Flag.bit, BitVec.getLsbD]
  omega

/-- Settles O53. -/
theorem resetOperationsSetTheRegisters : Obligations.ResetOperationsSetTheRegisters :=
  ⟨fun _ _ => rfl, fun _ _ _ => rfl, rfl, rfl, rfl, fun b => Memory.read_nil b.toNat⟩

end Sys2Proof.Machine
end

section
/-! PROOF. The bus (R33 to R37): what a write does as a range of addresses, the aliases of the sound-chip registers,
and that no bus write reaches the backing bytes of the window. -/

namespace Sys2Proof.Machine

theorem soundIndex_eq_ofNat (addr : Word) : soundIndex addr = BitVec.ofNat 5 (addr.toNat % 32) :=
  BitVec.eq_of_toNat_eq (by simp)

/-- A bus write in the window is one event (R35, R36). -/
theorem memWrite_of_inWindow {addr : Word} (h : inWindow addr = true) (s : State) (v : Byte) :
    s.memWrite addr v = s.soundWrite (soundIndex addr) v := if_pos h

/-- A bus write outside the window is one store (R35). -/
theorem memWrite_of_not_inWindow {addr : Word} (h : inWindow addr = false) (s : State) (v : Byte) :
    s.memWrite addr v = s.poke addr v := if_neg (Bool.eq_false_iff.mp h)

/-- Settles O13. -/
theorem busWriteStoresOrEmits : Obligations.BusWriteStoresOrEmits := by
  intro s addr v
  rw [← inWindow_iff, ← inWindow_eq_false_iff]
  constructor
  · intro hw
    rw [memWrite_of_inWindow hw, soundIndex_eq_ofNat]
    rfl
  · intro hw
    rw [memWrite_of_not_inWindow hw]
    exact ⟨⟨_, rfl⟩, fun b => s.memRead_poke addr b v⟩

/-- Settles O14: the address lies in the window, and its low five bits are the register's index. -/
theorem soundRegisterAliases : Obligations.SoundRegisterAliases := by
  intro s idx k v hk
  have hidx := idx.isLt
  have haddr : (BitVec.ofNat 16 (0xD400 + idx.toNat + 32 * k)).toNat = 0xD400 + idx.toNat + 32 * k := by
    rw [BitVec.toNat_ofNat, Nat.mod_eq_of_lt (by omega)]
  have hindex : soundIndex (BitVec.ofNat 16 (0xD400 + idx.toNat + 32 * k)) = idx :=
    BitVec.eq_of_toNat_eq (by rw [soundIndex_toNat, haddr]; omega)
  rw [State.memWrite_snd, if_pos ((inWindow_iff _).mpr (by omega)), hindex]

/-! ### The backing bytes of the window (R37, R206) -/

section
variable {b : Word} (hb : inWindow b = true)
include hb

theorem memWrite_memRead_window (s : State) (k : Word) (v : Byte) : (s.memWrite k v).memRead b = s.memRead b := by
  rw [State.memRead_memWrite, if_neg]
  rintro ⟨rfl, hk⟩
  rw [hb] at hk
  cases hk

theorem push_memRead_window (v : Byte) (s : State) : (push v s).memRead b = s.memRead b := by
  rw [push_memRead, if_neg]
  rintro rfl
  rw [inWindow_stackAddr] at hb
  cases hb

theorem storeToLast_memRead_window (m : Mode) (v : Byte) (s : State) :
    (storeToLast m v s).memRead b = s.memRead b := by
  rcases storeToLast_cases m v s with ⟨-, e⟩ | ⟨ea, -, e⟩ | ⟨-, -, e⟩ <;> rw [e]
  · rfl
  · exact memWrite_memRead_window hb s ea v

/-- Every instruction keeps the backing bytes of the window: it writes by the bus and the stack only (R35, R95). -/
theorem after_memRead_window (p : Params) (i : Instr) (s : State) : (after p i s).memRead b = s.memRead b := by
  cases hw : i.writesBus with
  | false => rw [State.memRead, (after_mem_snd p hw s).1, State.memRead]
  | true =>
    cases i
    case sta m | stx m | sty m => exact memWrite_memRead_window hb (s.setPc (nextPc m s)) _ _
    case asl m | lsr m | rol m | ror m | inc m | dec m =>
      exact storeToLast_memRead_window hb m _ (s.setPc (nextPc m s))
    case pha | php => exact push_memRead_window hb _ s
    case jsr => exact (push_memRead_window hb _ _).trans (push_memRead_window hb _ s)
    all_goals cases hw

theorem stepWith_memRead_window {p : Params} {s t : State} (ht : stepWith p s = .next t) :
    t.memRead b = s.memRead b := by
  rw [stepWith_eq] at ht
  obtain ⟨-, rfl⟩ := execWith_next ht
  exact after_memRead_window hb p _ (s.setPc (s.pc + 1))

/-- The host reaches the backing bytes of the window by bulk requests only (R206). -/
theorem hostOp_memRead_window (p : Params) {op : HostOp} (hcopy : ∀ d bs, op ≠ .bulkCopy d bs)
    (hfill : ∀ d v n, op ≠ .bulkFill d v n) (s : State) : (op.apply p s).memRead b = s.memRead b := by
  cases op with
  | reset | resetTo | readByte => rfl
  | runSubroutine pc a => exact (push_memRead_window hb _ _).trans (push_memRead_window hb _ (resetTo pc a s))
  | writeByte addr value => exact memWrite_memRead_window hb s addr value
  | bulkCopy d bs => exact absurd rfl (hcopy d bs)
  | bulkFill d v n => exact absurd rfl (hfill d v n)

end

/-- Settles O18: bus writes emit in the window and pushes stay in the stack page, and a step or a non-bulk host
operation writes by these only. -/
theorem windowBytesChangeOnlyByBulkRequests : Obligations.WindowBytesChangeOnlyByBulkRequests := by
  intro s addr hlo hhi
  have hb : inWindow addr = true := (inWindow_iff addr).mpr ⟨hlo, hhi⟩
  refine ⟨fun t ht => ?_, fun p t ht => stepWith_memRead_window hb ht,
    fun p op hcopy hfill => hostOp_memRead_window hb p hcopy hfill s⟩
  rw [← stepWith_params] at ht
  exact stepWith_memRead_window hb ht

end Sys2Proof.Machine
end

section
/-! PROOF. The host's requests: bulk requests for both settings of `P_BULK_INTERCEPT` (R38 to R41), and the operations
between and during runs (R185, R186). -/

namespace Sys2Proof.Machine

/-- An accepted copy that is not intercepted places its bytes in `M` (R39, R41). -/
theorem bulkCopy_stores {p : Params} (hp : p.bulkIntercept = false) {dest : Word} {bytes : List Byte}
    (h : dest.toNat + bytes.length ≤ 65535) (s : State) : bulkCopy p dest bytes s = s.pokeBytes dest bytes := by
  rw [bulkCopy_accepted h, bulkStore, hp, if_neg Bool.false_ne_true]

/-- An accepted copy that is intercepted goes through the bus (R41). -/
theorem bulkCopy_sends {p : Params} (hp : p.bulkIntercept = true) {dest : Word} {bytes : List Byte}
    (h : dest.toNat + bytes.length ≤ 65535) (s : State) : bulkCopy p dest bytes s = s.memWriteBytes dest bytes := by
  rw [bulkCopy_accepted h, bulkStore, if_pos hp]

/-- Settles O20: a fill is the copy of a replicated byte. -/
theorem bulkRequestsStoreOrAreDropped : Obligations.BulkRequestsStoreOrAreDropped := by
  intro p dest s hp
  refine ⟨fun bytes => ⟨fun h => ?_, fun h => bulkCopy_dropped h p s⟩, fun v len => ?_⟩
  · rw [bulkCopy_stores hp h]
    exact ⟨s.pokeBytes_eq dest bytes, s.memRead_pokeBytes dest bytes h⟩
  · rw [bulkFill_eq_bulkCopy]
    have hlen : (List.replicate len v).length = len := List.length_replicate
    refine ⟨fun h => ?_, fun h => bulkCopy_dropped (by rwa [hlen]) p s⟩
    have hacc : dest.toNat + (List.replicate len v).length ≤ 65535 := by rwa [hlen]
    rw [bulkCopy_stores hp hacc]
    refine ⟨s.pokeBytes_eq dest _, fun b => ?_⟩
    rw [s.memRead_pokeBytes dest _ hacc, hlen]
    refine ite_congr rfl (fun hin => ?_) (fun _ => rfl)
    exact List.getD_replicate _ (by omega)

/-- Settles O21. -/
theorem interceptedBulkCopyEmitsWindowBytes : Obligations.InterceptedBulkCopyEmitsWindowBytes := by
  intro p dest bytes s hp
  refine ⟨fun h => ?_, fun h => bulkCopy_dropped h p s⟩
  rw [bulkCopy_sends hp h]
  refine ⟨s.memWriteBytes_eq dest bytes h, fun b => ?_⟩
  simp only [← inWindow_eq_false_iff]
  exact s.memRead_memWriteBytes dest bytes h b

/-- Settles O57: each clause is the case of `Block.call` for its phase and operation. -/
theorem hostOperationsRunOnlyBetweenRuns : Obligations.HostOperationsRunOnlyBetweenRuns := fun _ _ =>
  ⟨fun _ => rfl, rfl, fun _ _ => rfl, fun _ _ => rfl, fun _ => rfl, fun _ _ => rfl, fun _ _ => rfl,
    fun _ _ _ => rfl⟩

end Sys2Proof.Machine
end

section
/-! PROOF. Little-endian pointers (R43): the target of JMP (R136) and the play address (R200). -/

namespace Sys2Proof.Machine

/-- The 16-bit value the low byte and the high byte after it make is the little-endian number there (R43). -/
theorem pair_memRead_toNat (s : State) (addr : Word) :
    (pair (s.memRead (addr + 1)) (s.memRead addr)).toNat = wordAt s addr := by
  rw [pair_toNat, wordAt]
  omega

theorem pair_memRead_eq (s : State) (addr : Word) :
    pair (s.memRead (addr + 1)) (s.memRead addr) = BitVec.ofNat 16 (wordAt s addr) := by
  rw [← pair_memRead_toNat, BitVec.ofNat_toNat, BitVec.setWidth_eq]

/-- The rows of JMP (R136). -/
theorem decode_eq_jmp_iff (op : Byte) (m : Mode) : decode op = .jmp m ↔ (op, m) ∈ [(0x4C, .abs), (0x6C, .ind)] :=
  decode_eq_iff_mem_rows (l := [(.abs, 0x4C), (.ind, 0x6C)]) (fun _ => rfl) (by decide) op m

/-- Settles O40: the operand, and the pointer at it, are each read by `wordAt`. -/
theorem jmpReplacesPc : Obligations.JmpReplacesPc := by
  refine ⟨decode_eq_jmp_iff, fun s => ?_⟩
  simp only [← pair_memRead_eq]
  exact ⟨exec_eq_after (.jmp .abs) s rfl, exec_eq_after (.jmp .ind) s rfl⟩

/-- Settles O54. -/
theorem playAddressIsTheLittleEndianVector : Obligations.PlayAddressIsTheLittleEndianVector := by
  refine fun s => ⟨?_, fun a ha => if_neg ha⟩
  rw [playAddress, if_pos rfl]
  exact pair_memRead_toNat s 0x0314

end Sys2Proof.Machine
end

section
/-! PROOF. The opcode map and the byte sequence: every byte is an instruction's opcode byte (R61, R63), and what is
read from a sequence is its first bytes (R55, R57). -/

namespace Sys2Proof

/-- All a byte sequence that decodes can be: the opcode byte, as many operand bytes as its instruction has, and the
rest (R55, R57). -/
theorem decodeBytes_ok {p : Params} {bytes : List Byte} {d : Decoded} (h : decodeBytes p bytes = .ok d) :
    ∃ op, bytes = op :: (d.operands ++ d.rest) ∧ d.instr = decode op ∧
      d.operands.length = (decode op).operandBytes p := by
  cases bytes with
  | nil => cases h
  | cons op tail =>
    rw [decodeBytes] at h
    split at h
    · cases h
    next hlen =>
      cases h
      exact ⟨op, by rw [List.take_append_drop], rfl, List.length_take_of_le (Nat.le_of_not_lt hlen)⟩

/-- Settles O4: the opcode byte of what was decoded is the byte it was decoded from. -/
theorem encodeInvertsDecode : Obligations.EncodeInvertsDecode := by
  intro p bytes d h
  obtain ⟨op, hbytes, hinstr, hlen⟩ := decodeBytes_ok h
  refine ⟨op :: d.operands, ?_, hbytes.symm⟩
  rw [hinstr]
  exact encode_eq_some (opcodeOf_decode op) hlen

/-- Settles O2: the grid of R61 and the Encodings lines agree on every byte. -/
theorem everyOpcodeByteDecodes : Obligations.EveryOpcodeByteDecodes := fun op => ⟨wf_decode op, opcodeOf_decode op⟩

/-- Settles O1: thirteen closed facts, each a run of the decoder. -/
theorem wordsOfTheEncodingsDecode : Obligations.WordsOfTheEncodingsDecode := by
  unfold Obligations.WordsOfTheEncodingsDecode
  decide

end Sys2Proof
end

section
/-! PROOF. PC after an instruction that transfers no control (R73). -/

namespace Sys2Proof.Machine

@[simp] theorem pop_pc (s : State) : (pop s).2.pc = s.pc := by rw [pop_eq]; rfl

/-- An instruction that transfers no control leaves PC past its operand bytes, for any parameters (R56, R73). -/
theorem after_pc (p : Params) {i : Instr} (h : i.transfersControl = false) (s : State) :
    (after p i s).pc = s.pc + BitVec.ofNat 16 (i.operandBytes p) := by
  cases i
  case bcc | bcs | bne | beq | bpl | bmi | bvc | bvs | jmp | jsr | rts | rti | brk => cases h
  case adc m | sbc m | and m | ora m | eor m | bit m | cmp m | cpx m | cpy m | lda m | ldx m | ldy m => rfl
  case asl m | lsr m | rol m | ror m | inc m | dec m => exact storeToLast_pc m _ (s.setPc (nextPc m s))
  case sta m | stx m | sty m => exact State.memWrite_pc (s.setPc (nextPc m s)) _ _
  case xxx op => rfl
  all_goals simp [after, Instr.operandBytes, Instr.mode, Mode.operandBytes]

/-- Settles O8: every next state is that of `after`. -/
theorem sequentialPcIsAfterTheOperands : Obligations.SequentialPcIsAfterTheOperands := by
  intro i s t _ hcontrol ht
  obtain ⟨-, rfl⟩ := exec_next ht
  exact after_pc params hcontrol s

end Sys2Proof.Machine
end

section
/-! PROOF. The addressing-mode resolver in numbers: the effective addresses (R78 to R85), the operands (R75 to R77,
R86), the write-back (R89 to R91), and the modes that are refused (R87, R93, R136). -/

namespace Sys2Proof.Machine

theorem pair_add_zext16_toNat (s : State) (v : Byte) :
    (pair (s.memRead (s.pc + 1)) (s.memRead s.pc) + zext16 v).toNat = (wordAt s s.pc + v.toNat) % 65536 := by
  rw [BitVec.toNat_add, pair_memRead_toNat, zext16_toNat]

/-- Settles O22: `eaOf` of each mode as a number. -/
theorem indexedAbsoluteAndZeroPageAddresses : Obligations.IndexedAbsoluteAndZeroPageAddresses := fun s =>
  ⟨⟨_, eaFresh_eq rfl s, pair_add_zext16_toNat s s.x⟩, ⟨_, eaFresh_eq rfl s, pair_add_zext16_toNat s s.y⟩,
    ⟨_, eaFresh_eq rfl s, zext16_toNat _⟩⟩

theorem zext16_eq_ofNat (v : Byte) : zext16 v = BitVec.ofNat 16 v.toNat :=
  BitVec.eq_of_toNat_eq (by rw [zext16_toNat, BitVec.toNat_ofNat]; omega)

/-- An indexed zero-page address wraps within page 0x00 (R82, R83). -/
theorem zext16_add_toNat (z i : Byte) : (zext16 (z + i)).toNat = (z.toNat + i.toNat) % 256 := by
  rw [zext16_toNat, BitVec.toNat_add]

/-- A zero-page pointer is little-endian, with its high byte at the next zero-page address modulo 256 (R84). -/
theorem zeroPagePointer_toNat (t : Byte) (s : State) :
    (zeroPagePointer t s).toNat =
      (s.memRead (BitVec.ofNat 16 t.toNat)).toNat + 256 * (s.memRead (BitVec.ofNat 16 ((t.toNat + 1) % 256))).toNat := by
  have next : (t + 1).toNat = (t.toNat + 1) % 256 := BitVec.toNat_add ..
  rw [zeroPagePointer, pair_toNat, zext16_eq_ofNat, zext16_eq_ofNat, next]
  omega

/-- Settles O23: `eaOf` of each mode as a number, with the pointers of the indirect modes by `zeroPagePointer`. -/
theorem wrappedZeroPageAndPointerAddresses : Obligations.WrappedZeroPageAndPointerAddresses := by
  refine fun s => ⟨⟨_, eaFresh_eq rfl s, pair_memRead_toNat s s.pc⟩, ⟨_, eaFresh_eq rfl s, zext16_add_toNat _ _⟩,
    ⟨_, eaFresh_eq rfl s, zext16_add_toNat _ _⟩, ⟨_, eaFresh_eq rfl s, ?_⟩, ⟨_, eaFresh_eq rfl s, ?_⟩⟩
  · rw [eaOf, zeroPagePointer_toNat, BitVec.toNat_add, Nat.mod_add_mod]
  · rw [eaOf, BitVec.toNat_add, zeroPagePointer_toNat, zext16_toNat]

/-- In a mode with an effective address the operand is the byte there (R75). -/
theorem fetchOperand_hasEa {m : Mode} (h : m.hasEa = true) (s : State) :
    fetchOperand m s = some (s.memRead (eaOf m s), s.setPc (nextPc m s)) := by
  rw [fetchOperand_eq (by rintro rfl; cases h) (by rintro rfl; cases h), operandOf_hasEa h]

/-- Settles O24. -/
theorem operandsOfTheListedModes : Obligations.OperandsOfTheListedModes := by
  refine fun s => ⟨rfl, rfl, rfl, fun m hm => ?_⟩
  have listed : ∀ m ∈ [Mode.abs, .absx, .absy, .zp, .zpx, .zpy, .indx, .indy], m.hasEa = true := by decide
  exact ⟨_, eaFresh_eq (listed m hm) s, fetchOperand_hasEa (listed m hm) s⟩

/-- In a mode it neither stores to memory nor to A in, `store_to_last_operand` does nothing (R90). -/
theorem storeToLast_of_unsupported {m : Mode} (hacc : m ≠ .acc) (h : m.rewritesMemory = false) (v : Byte) (s : State) :
    storeToLast m v s = s := by
  cases m <;> first
    | exact absurd rfl hacc
    | exact absurd h (by decide)
    | rfl

/-- Settles O26. -/
theorem writeBackHitsTheAddressJustRead : Obligations.WriteBackHitsTheAddressJustRead := by
  refine fun s v => ⟨fun m hm => ?_, rfl, fun m hm => ?_⟩
  · have listed : ∀ m ∈ [Mode.abs, .absx, .zp, .zpx], m.rewritesMemory = true := by decide
    exact ⟨_, _, eaFresh_eq (Mode.hasEa_of_rewritesMemory (listed m hm)) s, storeToLast_mem (listed m hm) v s,
      storeToLast_pc m v _⟩
  · have listed : ∀ m ∈ [Mode.imp, .imm, .absy, .zpy, .ind, .indx, .indy, .rel],
        m ≠ .acc ∧ m.rewritesMemory = false := by decide
    obtain ⟨hacc, hmem⟩ := listed m hm
    exact storeToLast_of_unsupported hacc hmem v s

/-! ### The refused modes -/

/-- The reading instructions and the read-modify-writes start from `fetch_operand` (R74). -/
theorem exec_reading {m : Mode} {i : Instr} (h : i ∈ [Instr.adc m, .sbc m, .and m, .ora m, .eor m, .bit m, .asl m,
      .lsr m, .rol m, .ror m, .cmp m, .cpx m, .cpy m, .inc m, .dec m, .lda m, .ldx m, .ldy m]) (s : State) :
    ∃ effect, exec i s = withOperand m s effect := by
  simp only [List.mem_cons, List.not_mem_nil, or_false] at h
  rcases h with rfl | rfl | rfl | rfl | rfl | rfl | rfl | rfl | rfl | rfl | rfl | rfl | rfl | rfl | rfl | rfl | rfl |
    rfl
  all_goals
    simp only [exec, execAdc, execSbc, execAnd, execOra, execEor, execBit, execAsl, execAslWith, execLsr, execRol,
      execRor, shiftOperand, execCmp, execCpx, execCpy, execInc, execDec, execLda, execLdx, execLdy]
    exact ⟨_, rfl⟩

/-- The stores are `store_fresh` of a register (R74). -/
theorem exec_storing {m : Mode} {i : Instr} (h : i ∈ [Instr.sta m, .stx m, .sty m]) (s : State) :
    ∃ v, exec i s = storeByte m v s := by
  simp only [List.mem_cons, List.not_mem_nil, or_false] at h
  rcases h with rfl | rfl | rfl <;> exact ⟨_, rfl⟩

theorem withOperand_refused {m : Mode} {s : State} (h : fetchOperand m s = none) (effect : Byte → State → State) :
    withOperand m s effect = .refused (.fetchOperandMode m) := by
  rw [withOperand, h]

theorem storeByte_refused {m : Mode} (h : m.hasEa = false) (v : Byte) (s : State) :
    storeByte m v s = .refused (.storeFreshMode m) := by
  rw [storeByte, storeFresh, eaFresh_none h]
  rfl

theorem fetchOperand_none {m : Mode} (h : m ∈ [Mode.ind, .rel]) (s : State) : fetchOperand m s = none := by
  simp only [List.mem_cons, List.not_mem_nil, or_false] at h
  rcases h with rfl | rfl <;> rfl

/-- Settles O25. -/
theorem unlistedModesAreRefused : Obligations.UnlistedModesAreRefused := by
  refine ⟨fun m hm i hi s => ?_, fun m hm i hi s => ?_, fun m habs hind s => ?_⟩
  · obtain ⟨effect, e⟩ := exec_reading hi s
    rw [e, withOperand_refused (fetchOperand_none hm s)]
  · have unlisted : ∀ m ∈ [Mode.imp, .imm, .ind, .acc, .rel], m.hasEa = false := by decide
    obtain ⟨v, e⟩ := exec_storing hi s
    rw [e, storeByte_refused (unlisted m hm)]
  · cases m
    case abs => exact absurd rfl habs
    case ind => exact absurd rfl hind
    all_goals rfl

end Sys2Proof.Machine
end

section
/-! PROOF. The stack in numbers: one push and one pop (R95, R96), any number of pushes (R97, R204), and what is built
on them: PHA, PHP, PLA, PLP (R142 to R145), JSR (R137) and the start of a run (R180). -/

namespace Sys2Proof.Machine

theorem pushedSp_eq_ofNat (sp : Byte) : pushedSp sp = BitVec.ofNat 8 (sp.toNat - 1) :=
  BitVec.eq_of_toNat_eq (by rw [pushedSp_toNat, BitVec.toNat_ofNat]; omega)

theorem poppedSp_eq_ofNat (sp : Byte) : poppedSp sp = BitVec.ofNat 8 (popped sp.toNat) :=
  BitVec.eq_of_toNat_eq (by rw [poppedSp_toNat, BitVec.toNat_ofNat, popped]; omega)

/-- Memory after a push, with the stack address as a number (R95). -/
theorem push_memRead_toNat (v : Byte) (s : State) (b : Word) :
    (push v s).memRead b = if b.toNat = 0x0100 + s.sp.toNat then v else s.memRead b := by
  simp only [push_memRead, eq_stackAddr_iff]

/-- Settles O27. -/
theorem pushStoresThenClamps : Obligations.PushStoresThenClamps := by
  intro v s
  obtain ⟨m', e⟩ := push_only v s
  exact ⟨⟨m', by rw [e, pushedSp_eq_ofNat]⟩, push_memRead_toNat v s⟩

/-- Settles O28. -/
theorem popClampsThenReads : Obligations.PopClampsThenReads := by
  intro s
  rw [pop_eq, ← stackByte_eq, poppedSp_toNat, poppedSp_eq_ofNat]
  rfl

/-! ### Any number of pushes -/

/-- The bytes of a list pushed in order. -/
def pushAll (vs : List Byte) (s : State) : State := vs.foldl (fun u v => push v u) s

theorem pushAll_concat (vs : List Byte) (v : Byte) (s : State) : pushAll (vs ++ [v]) s = push v (pushAll vs s) := by
  simp [pushAll]

theorem pushAll_sp (vs : List Byte) (s : State) : (pushAll vs s).sp.toNat = s.sp.toNat - vs.length := by
  induction vs using List.reverseRecOn with
  | nil => rfl
  | append_singleton vs v ih =>
    rw [pushAll_concat, push_sp, pushedSp_toNat, ih, List.length_append, List.length_singleton, Nat.sub_sub]

theorem pushAll_snd (vs : List Byte) (s : State) : (pushAll vs s).snd = s.snd := by
  induction vs using List.reverseRecOn with
  | nil => rfl
  | append_singleton vs v ih => rw [pushAll_concat, push_snd, ih]

/-- Pushes write the stack page alone (R97). -/
theorem pushAll_memRead_outside {b : Word} (hb : b.toNat < 0x0100 ∨ 0x01FF < b.toNat) (vs : List Byte) (s : State) :
    (pushAll vs s).memRead b = s.memRead b := by
  induction vs using List.reverseRecOn with
  | nil => rfl
  | append_singleton vs v ih =>
    have := (pushAll vs s).sp.isLt
    rw [pushAll_concat, push_memRead_toNat, if_neg (by omega), ih]

/-- Once S has reached 0x00, the last byte pushed stands at 0x0100 (R95, R204). -/
theorem pushAll_last {vs : List Byte} {s : State} (h : s.sp.toNat < vs.length) :
    vs.getLast? = some ((pushAll vs s).memRead 0x0100) := by
  induction vs using List.reverseRecOn with
  | nil => exact absurd h (Nat.not_lt_zero _)
  | append_singleton vs v _ =>
    rw [List.length_append, List.length_singleton] at h
    have base : (pushAll vs s).sp.toNat = 0 := by rw [pushAll_sp]; omega
    rw [List.getLast?_concat, pushAll_concat, push_memRead_toNat, if_pos (by rw [base]; rfl)]

/-- Settles O29. -/
theorem repeatedPushesClampAtTheStackBase : Obligations.RepeatedPushesClampAtTheStackBase := by
  rintro vs s t rfl
  exact ⟨pushAll_sp vs s, pushAll_last, fun b hb => pushAll_memRead_outside hb vs s, pushAll_snd vs s⟩

/-! ### The stack instructions -/

/-- An opcode byte is the only one that decodes to its instruction (R57, R61). -/
theorem decode_eq_iff_eq {i : Instr} {op : Byte} (h : opcodeOf i = some op) (k : Byte) : decode k = i ↔ k = op := by
  rw [decode_eq_iff, h, Option.some.injEq, eq_comm]

/-- Settles O44. -/
theorem pushInstructionsPushARegister : Obligations.PushInstructionsPushARegister :=
  ⟨implied_of (decode_eq_iff_eq rfl) rfl fun s => pushStoresThenClamps s.a s,
    implied_of (decode_eq_iff_eq rfl) rfl fun s => pushStoresThenClamps s.p s⟩

/-- Settles O45. -/
theorem pullInstructionsPullARegister : Obligations.PullInstructionsPullARegister := by
  refine ⟨implied_of (decode_eq_iff_eq rfl) rfl fun s => ?_, implied_of (decode_eq_iff_eq rfl) rfl fun s => ?_⟩
  · rw [after, popClampsThenReads]
    exact ⟨_, rfl, setZN_flags _ s⟩
  · rw [after, popClampsThenReads]
    rfl

theorem loByte_eq_ofNat (w : Word) : loByte w = BitVec.ofNat 8 (w.toNat % 256) :=
  BitVec.eq_of_toNat_eq (by rw [loByte_toNat, BitVec.toNat_ofNat, Nat.mod_mod])

theorem hiByte_eq_ofNat (w : Word) : hiByte w = BitVec.ofNat 8 (w.toNat / 256) :=
  BitVec.eq_of_toNat_eq (by rw [hiByte_toNat, BitVec.toNat_ofNat]; omega)

/-- The two pushes of JSR: the address of its last byte, high byte first (R137, D16). -/
def pushReturn (s : State) : State := push (loByte (s.pc + 1)) (push (hiByte (s.pc + 1)) s)

theorem pushReturn_only (s : State) :
    ∃ m', pushReturn s = { s with mem := m', sp := BitVec.ofNat 8 (s.sp.toNat - 2) } := by
  have sp : pushedSp (pushedSp s.sp) = BitVec.ofNat 8 (s.sp.toNat - 2) := by
    rw [pushedSp_eq_ofNat, pushedSp_toNat, Nat.sub_sub]
  rw [pushReturn, push_eq, push_eq, ← sp]
  exact ⟨_, rfl⟩

theorem pushReturn_memRead (s : State) (b : Word) :
    (pushReturn s).memRead b =
      if b.toNat = 0x0100 + (s.sp.toNat - 1) then BitVec.ofNat 8 ((s.pc.toNat + 1) % 65536 % 256)
      else if b.toNat = 0x0100 + s.sp.toNat then BitVec.ofNat 8 ((s.pc.toNat + 1) % 65536 / 256)
      else s.memRead b := by
  have next : (s.pc + 1).toNat = (s.pc.toNat + 1) % 65536 := BitVec.toNat_add ..
  rw [pushReturn, push_memRead_toNat, push_memRead_toNat, push_sp, pushedSp_toNat, loByte_eq_ofNat, hiByte_eq_ofNat,
    next]

/-- JSR in full: the target is read after the pushes (R137). -/
theorem after_jsr (p : Params) (s : State) :
    after p .jsr s = (pushReturn s).setPc (BitVec.ofNat 16 (wordAt (pushReturn s) s.pc)) := by
  rw [← pair_memRead_eq]
  rfl

/-- Settles O41. -/
theorem jsrPushesThenReadsItsTarget : Obligations.JsrPushesThenReadsItsTarget := by
  refine implied_of (decode_eq_iff_eq rfl) rfl fun s => ?_
  rw [after_jsr]
  obtain ⟨m', e⟩ := pushReturn_only s
  exact ⟨⟨m', congrArg (State.setPc · _) e⟩, pushReturn_memRead s⟩

/-- Settles O55: the sentinel's two bytes are both 0x00. -/
theorem runStartsWithTheSentinel : Obligations.RunStartsWithTheSentinel := by
  intro entry seed s
  rw [enterRun_eq]
  refine ⟨⟨_, rfl⟩, fun b => ?_⟩
  rw [State.setSp_memRead, State.memRead_poke, State.memRead_poke]
  by_cases low : b = 0x01FE
  · rw [if_pos low, if_pos (.inr low)]
  · simp only [low, if_false, or_false]
    rfl

end Sys2Proof.Machine
end

section
/-! PROOF. The relative branches (R94, R127 to R135). -/

namespace Sys2Proof.Machine

/-- The branch in full, with the displacement as a signed number (R94). -/
theorem branch_eq_ofInt (cond : Bool) (s : State) :
    branch cond s = { s with pc := BitVec.ofInt 16 ((s.pc.toNat : Int) + 1 +
      if cond = true then (s.memRead s.pc).toInt else 0) } := by
  have next : BitVec.ofInt 16 ((s.pc.toNat : Int) + 1) = s.pc + 1 := by
    rw [BitVec.ofInt_add, BitVec.ofInt_natCast, BitVec.ofNat_toNat, BitVec.setWidth_eq]
    rfl
  rw [branch_eq, BitVec.ofInt_add, next]
  cases cond with
  | true => rfl
  | false => simp [State.setPc]

/-- The branches by opcode byte, with the flag each tests and the value it tests for (R128 to R135, D15). -/
def branchRows : List (Byte × Instr × Flag × Bool) :=
  [(0x90, .bcc, .c, false), (0xB0, .bcs, .c, true), (0xD0, .bne, .z, false), (0xF0, .beq, .z, true),
    (0x10, .bpl, .n, false), (0x30, .bmi, .n, true), (0x50, .bvc, .v, false), (0x70, .bvs, .v, true)]

theorem branchRows_opcodeOf : ∀ r ∈ branchRows, opcodeOf r.2.1 = some r.1 ∧ runs r.2.1 = true := by decide

/-- A branch is `branch` on its one flag. -/
theorem after_of_mem_branchRows {r : Byte × Instr × Flag × Bool} (h : r ∈ branchRows) (s : State) :
    after params r.2.1 s = branch (s.flag r.2.2.1 == r.2.2.2) s := by
  simp only [branchRows, List.mem_cons, List.not_mem_nil, or_false] at h
  rcases h with rfl | rfl | rfl | rfl | rfl | rfl | rfl | rfl <;> simp [after]

/-- Settles O39. -/
theorem branchesTestOneFlag : Obligations.BranchesTestOneFlag := by
  intro op i f b h
  obtain ⟨hop, hruns⟩ := branchRows_opcodeOf _ h
  refine implied_of (decode_eq_iff_eq hop) hruns fun s => ?_
  rw [after_of_mem_branchRows h s, branch_eq_ofInt]
  simp only [beq_iff_eq]

end Sys2Proof.Machine
end

section
/-! PROOF. What a store and a read-modify-write in a memory mode leave alone (R89, R92, R107). -/

namespace Sys2Proof.Machine

/-- The stores and the read-modify-writes, in mode `m`. -/
def memoryWriters (m : Mode) : List Instr :=
  [.sta m, .stx m, .sty m, .asl m, .lsr m, .rol m, .ror m, .inc m, .dec m]

/-- In a mode with an effective address, these write PC past the operand bytes and no other register. -/
theorem memoryWriters_frame {m : Mode} (h : m.hasEa = true) : ∀ i ∈ memoryWriters m,
    i.writesA = false ∧ i.writesX = false ∧ i.writesY = false ∧ i.writesS = false ∧ i.transfersControl = false ∧
      i.operandBytes params = m.operandBytes := by
  revert h
  cases m <;> decide

/-- The write-back reaches no address but the one just read (R89, R90). -/
theorem storeToLast_memRead_of_ne {m : Mode} (h : m.hasEa = true) {s : State} {b : Word} (hb : b ≠ eaOf m s) (v : Byte) :
    (storeToLast m v (s.setPc (nextPc m s))).memRead b = s.memRead b := by
  cases hm : m.rewritesMemory with
  | true => rw [storeToLast_mem hm, State.memRead_memWrite, if_neg (fun e => hb e.1), State.setPc_memRead]
  | false => rw [storeToLast_of_unsupported (by rintro rfl; cases h) hm, State.setPc_memRead]

/-- A store or a read-modify-write changes no byte but the one at its effective address. -/
theorem after_memRead_of_ne {m : Mode} (h : m.hasEa = true) (p : Params) {i : Instr} (hi : i ∈ memoryWriters m)
    {s : State} {b : Word} (hb : b ≠ eaOf m s) : (after p i s).memRead b = s.memRead b := by
  have store (v : Byte) : ((s.setPc (nextPc m s)).memWrite (eaOf m s) v).memRead b = s.memRead b := by
    rw [State.memRead_memWrite, if_neg (fun e => hb e.1), State.setPc_memRead]
  simp only [memoryWriters, List.mem_cons, List.not_mem_nil, or_false] at hi
  rcases hi with rfl | rfl | rfl | rfl | rfl | rfl | rfl | rfl | rfl
  · exact store s.a
  · exact store s.x
  · exact store s.y
  all_goals exact storeToLast_memRead_of_ne h hb _

theorem after_p_of_store (p : Params) {m : Mode} {i : Instr} (h : i ∈ [Instr.sta m, .stx m, .sty m]) (s : State) :
    (after p i s).p = s.p := by
  simp only [List.mem_cons, List.not_mem_nil, or_false] at h
  rcases h with rfl | rfl | rfl <;> exact State.memWrite_p ..

/-- All `EA_fresh` can answer. -/
theorem eaFresh_some {m : Mode} {s u : State} {ea : Word} (h : eaFresh m s = some (ea, u)) :
    m.hasEa = true ∧ ea = eaOf m s ∧ u = s.setPc (nextPc m s) := by
  cases hm : m.hasEa with
  | false => rw [eaFresh_none hm] at h; cases h
  | true => rw [eaFresh_eq hm] at h; cases h; exact ⟨rfl, rfl, rfl⟩

/-- Settles O12: the frame is that of `after`; a byte of the window is kept by every instruction. -/
theorem storingInstructionsChangeOnlyTheirByte : Obligations.StoringInstructionsChangeOnlyTheirByte := by
  intro m s t u ea i hea hi ht
  obtain ⟨hm, rfl, rfl⟩ := eaFresh_some hea
  obtain ⟨-, rfl⟩ := exec_next ht
  obtain ⟨ha, hx, hy, hs, hcontrol, hlen⟩ := memoryWriters_frame hm i hi
  refine ⟨fun b hb => after_memRead_of_ne hm params hi hb, fun hlo hhi b => ?_, after_a params ha s,
    after_x params hx s, after_y params hy s, after_sp params hs s, ?_, fun hstore => after_p_of_store params hstore s⟩
  · by_cases hb : b = eaOf m s
    · exact after_memRead_window ((inWindow_iff b).mpr (hb ▸ ⟨hlo, hhi⟩)) params i s
    · exact after_memRead_of_ne hm params hi hb
  · rw [after_pc params hcontrol, hlen]
    rfl

end Sys2Proof.Machine
end

section
/-! PROOF. Arithmetic and logic (R98 to R106): the kinds that read an operand, with their rows in the opcode map and
what each makes of A and of the flags. -/

namespace Sys2Proof.Machine

/-- A kind that reads an operand in every mode `fetch_operand` lists has the rows of its Encodings line. -/
theorem readsOperand_of_encodings {mk : Mode → Instr} {rows : List (Byte × Mode)}
    {effect : Byte → State → State → Prop} (encodings : ∀ m, opcodeOf (mk m) = (rows.map Prod.swap).lookup m)
    (nodup : (rows.map Prod.snd).Nodup) (reads : ∀ m, runs (mk m) = (m != .ind && m != .rel))
    (h : ∀ m s, effect (operandOf m s) (s.setPc (nextPc m s)) (after params (mk m) s)) :
    ReadsOperand mk rows effect := by
  have decodes (op : Byte) (m : Mode) : decode op = mk m ↔ (op, m) ∈ rows := by
    simpa using decode_eq_iff_mem_rows encodings (by simpa [Function.comp_def] using nodup) op m
  refine readsOperand_of decodes (fun c hc => ?_) fun c _ => h c.2
  have hruns : runs (mk c.2) = true := (decodes c.1 c.2).mpr hc ▸ runs_of_wf (wf_decode c.1)
  obtain ⟨hind, hrel⟩ : c.2 ≠ .ind ∧ c.2 ≠ .rel := by simpa [reads] using hruns
  exact ⟨hind, hrel, hruns⟩

/-! ### ADC and SBC -/

/-- The adder's effect on the state: the sum modulo 256 into A, and the status register (R98, R101). -/
theorem addToA_eq (m : Byte) (s : State) :
    addToA m s =
      { s with a := BitVec.ofNat 8 (s.a.toNat + m.toNat + (s.flag .c).toNat), p := (addToA m s).p } := by
  rw [← add8_r]
  rfl

/-- Settles O30: ADC is the adder on its operand. -/
theorem adcAddsWithCarry : Obligations.AdcAddsWithCarry :=
  readsOperand_of_encodings (fun _ => rfl) (by decide) (fun _ => rfl) fun _ _ =>
    ⟨_, addToA_eq _ _, addToA_flags _ _⟩

/-- Adding the complement carries out of bit 7 exactly if subtracting with the borrow 1 - C needs no borrow (R102). -/
theorem carry_iff_no_borrow (a v : Byte) (c : Bool) :
    255 < a.toNat + (255 - v.toNat) + c.toNat ↔ v.toNat + (1 - c.toNat) ≤ a.toNat := by
  have hv := v.isLt
  have hc := c.toNat_le
  omega

/-- Settles O31: SBC is the adder on the complemented operand. -/
theorem sbcSubtractsWithBorrow : Obligations.SbcSubtractsWithBorrow := by
  refine readsOperand_of_encodings (fun _ => rfl) (by decide) (fun _ => rfl) fun m s => ?_
  simp only [← carry_iff_no_borrow, ← complement_toNat]
  exact ⟨_, addToA_eq _ _, addToA_flags _ _⟩

/-! ### AND, ORA, EOR and BIT -/

/-- A byte put into A with its Z and N changes nothing else (R15, R103 to R105). -/
theorem setZN_setA_only (v : Byte) (s : State) :
    ∃ p', setZN v (s.setA v) = { s with a := v, p := p' } ∧ FlagsWritten s.p p' (znOf v.toNat) :=
  ⟨_, rfl, setZN_flags v (s.setA v)⟩

/-- Settles O32: each of the three puts its combination into A. -/
theorem logicalInstructionsCombineIntoA : Obligations.LogicalInstructionsCombineIntoA :=
  ⟨readsOperand_of_encodings (fun _ => rfl) (by decide) (fun _ => rfl) fun _ _ => setZN_setA_only _ _,
    readsOperand_of_encodings (fun _ => rfl) (by decide) (fun _ => rfl) fun _ _ => setZN_setA_only _ _,
    readsOperand_of_encodings (fun _ => rfl) (by decide) (fun _ => rfl) fun _ _ => setZN_setA_only _ _⟩

/-- Settles O33: bits 7 and 6 of the operand, as numbers, go to N and V. -/
theorem bitTestsTheOperand : Obligations.BitTestsTheOperand := by
  refine readsOperand_of_encodings (fun _ => rfl) (by decide) (fun _ => rfl) fun m s => ⟨_, rfl, fun f => ?_⟩
  simp only [State.setFlag_p, State.setPc_p, getFlag_putFlag, bit7_eq, bit6_eq]
  cases f <;> rfl

end Sys2Proof.Machine
end

section
/-! PROOF. LSR, ROL and ROR (R110 to R112): each of the three in numbers, and the kinds built on them. -/

namespace Sys2Proof.Machine

/-! ### What each gives, in numbers: the byte written back, the bit shifted out, and Z -/

theorem shiftRight_eq (m : Byte) :
    shiftRight m = ⟨BitVec.ofNat 8 (m.toNat / 2), decide (m.toNat % 2 = 1), decide (m.toNat / 2 = 0)⟩ := by
  rw [← shiftRight_r, ← shiftRight_c, ← shiftRight_z]

theorem rotateLeft_eq (m : Byte) (cin : Bool) :
    rotateLeft m cin = ⟨BitVec.ofNat 8 ((2 * m.toNat + cin.toNat) % 256), decide (128 ≤ m.toNat),
      decide ((2 * m.toNat + cin.toNat) % 256 = 0)⟩ := by
  rw [← rotateLeft_r, ← rotateLeft_c m cin, ← rotateLeft_z]

theorem rotateRight_eq (m : Byte) (cin : Bool) :
    rotateRight m cin = ⟨BitVec.ofNat 8 (m.toNat / 2 + 128 * cin.toNat), decide (m.toNat % 2 = 1),
      decide (m.toNat / 2 + 128 * cin.toNat = 0)⟩ := by
  rw [← rotateRight_r, ← rotateRight_c m cin, ← rotateRight_z]

/-! ### The kinds -/

/-- With Z taken from an 8-bit result `n`, the flags written are C, Z and N of `n` (R15, R107). -/
theorem shiftFlags_flags_zncOf {n : Nat} (hn : n < 256) (c : Bool) (s : State) :
    FlagsWritten s.p (shiftFlags ⟨BitVec.ofNat 8 n, c, decide (n = 0)⟩ s).p (zncOf n c) := by
  have hr : (BitVec.ofNat 8 n).toNat = n := Nat.mod_eq_of_lt hn
  intro f
  rw [shiftFlags_flags _ s f, hr]
  cases f <;> rfl

/-- The rows of a kind in the opcode map are those of its Encodings line, listed by opcode byte. -/
theorem decode_eq_iff_mem_of_encodings {mk : Mode → Instr} {rows : List (Byte × Mode)}
    (encodings : ∀ m, opcodeOf (mk m) = (rows.map Prod.swap).lookup m) (nodup : (rows.map Prod.snd).Nodup)
    (op : Byte) (m : Mode) : decode op = mk m ↔ (op, m) ∈ rows := by
  simpa using decode_eq_iff_mem_rows encodings (by simpa [Function.comp_def] using nodup) op m

/-- A kind that shifts or rotates its operand by `f` is a read-modify-write with the result, C and Z of `f`, and N of
the result (R107). -/
theorem modifiesOperand_of_shiftOperand {mk : Mode → Instr} {run : Mode → State → Result}
    {rows : List (Byte × Mode)} {f : Byte → Bool → Shifted} {result : Byte → Bool → Nat} {carry : Byte → Bool → Bool}
    (encodings : ∀ m, opcodeOf (mk m) = (rows.map Prod.swap).lookup m) (nodup : (rows.map Prod.snd).Nodup)
    (modes : ∀ c ∈ rows, c.2 = .acc ∨ c.2.rewritesMemory = true) (hrun : ∀ m s, run m s = shiftOperand m s f)
    (hf : ∀ v c, f v c = ⟨BitVec.ofNat 8 (result v c), carry v c, decide (result v c = 0)⟩)
    (hlt : ∀ v c, result v c < 256) :
    ModifiesOperand mk run rows result (fun v c => zncOf (result v c) (carry v c)) := by
  refine modifiesOperand_of (fun v c => (f v c).r) (fun v c => shiftFlags (f v c))
    (decode_eq_iff_mem_of_encodings encodings nodup) modes hrun (fun v c => by rw [hf]) (fun _ _ _ => rfl)
    (fun v c => shiftFlags_memWrite (f v c)) fun v c s => ?_
  rw [hf]
  exact shiftFlags_flags_zncOf (hlt v c) (carry v c) s

/-- Settles O35: each kind shifts or rotates its operand, and its result is below 256. -/
theorem lsrRolRorShiftAndRotate : Obligations.LsrRolRorShiftAndRotate := by
  refine ⟨modifiesOperand_of_shiftOperand (fun _ => rfl) (by decide) (by decide) (fun _ _ => rfl)
      (fun v _ => shiftRight_eq v) fun v _ => ?_,
    modifiesOperand_of_shiftOperand (fun _ => rfl) (by decide) (by decide) (fun _ _ => rfl)
      rotateLeft_eq fun _ _ => Nat.mod_lt _ (by decide),
    modifiesOperand_of_shiftOperand (fun _ => rfl) (by decide) (by decide) (fun _ _ => rfl)
      rotateRight_eq fun v c => ?_⟩
  · have hv := v.isLt
    omega
  · have hv := v.isLt
    have hc := c.toNat_le
    omega

end Sys2Proof.Machine
end

section
/-! PROOF. Compares, increments and decrements (R113 to R124): a compare writes only the status register, and a step by
one is read as a number below 256. -/

namespace Sys2Proof.Machine

/-! ### CMP, CPX and CPY -/

/-- A compare changes nothing but Z, N and C (R113). -/
theorem compareFlags_only (r m : Byte) (s : State) :
    ∃ p', compareFlags r m s = { s with p := p' } ∧ FlagsWritten s.p p'
      (zncOf ((r.toNat + 256 - m.toNat) % 256) (decide (m.toNat ≤ r.toNat))) :=
  ⟨_, rfl, compareFlags_flags r m s⟩

/-- Settles O36: each of the three compares its register with its operand. -/
theorem comparesSetFlagsOnly : Obligations.ComparesSetFlagsOnly :=
  ⟨readsOperand_of_encodings (fun _ => rfl) (by decide) (fun _ => rfl) fun _ _ => compareFlags_only _ _ _,
    readsOperand_of_encodings (fun _ => rfl) (by decide) (fun _ => rfl) fun _ _ => compareFlags_only _ _ _,
    readsOperand_of_encodings (fun _ => rfl) (by decide) (fun _ => rfl) fun _ _ => compareFlags_only _ _ _⟩

/-! ### A byte stepped by one, as a number -/

theorem add_one_eq_ofNat (v : Byte) : v + 1 = BitVec.ofNat 8 (v.toNat + 1) :=
  BitVec.eq_of_toNat_eq rfl

/-- Modulo 256, one less is 255 more. -/
theorem sub_one_eq_ofNat (v : Byte) : v - 1 = BitVec.ofNat 8 (v.toNat + 255) :=
  BitVec.eq_of_toNat_eq (by rw [BitVec.toNat_sub, Nat.add_comm]; rfl)

/-! ### INC and DEC -/

/-- A kind that replaces its operand by the low byte of a number and sets Z and N of that byte (R119, R120). -/
theorem modifiesOperand_of_setZN {mk : Mode → Instr} {run : Mode → State → Result} {rows : List (Byte × Mode)}
    {r : Byte → Byte} {n : Byte → Nat}
    (encodings : ∀ m, opcodeOf (mk m) = (rows.map Prod.swap).lookup m) (nodup : (rows.map Prod.snd).Nodup)
    (modes : ∀ c ∈ rows, c.2 = .acc ∨ c.2.rewritesMemory = true)
    (hrun : ∀ m s, run m s = withOperand m s fun v t => setZN (r v) (storeToLast m (r v) t))
    (hr : ∀ v, r v = BitVec.ofNat 8 (n v)) :
    ModifiesOperand mk run rows (fun v _ => n v % 256) (fun v _ => znOf (n v % 256)) := by
  have toNat (v : Byte) : (r v).toNat = n v % 256 := by rw [hr, BitVec.toNat_ofNat]
  refine modifiesOperand_of (fun v _ => r v) (fun v _ => setZN (r v))
    (decode_eq_iff_mem_of_encodings encodings nodup) modes hrun (fun v _ => ?_) (fun _ _ _ => rfl)
    (fun v _ => setZN_memWrite (r v)) fun v _ s => toNat v ▸ setZN_flags (r v) s
  rw [← toNat, BitVec.ofNat_toNat, BitVec.setWidth_eq]

/-- Settles O37: each of the two writes its operand back stepped by one. -/
theorem incDecStepAMemoryByte : Obligations.IncDecStepAMemoryByte :=
  ⟨modifiesOperand_of_setZN (fun _ => rfl) (by decide) (by decide) (fun _ _ => rfl) add_one_eq_ofNat,
    modifiesOperand_of_setZN (fun _ => rfl) (by decide) (by decide) (fun _ _ => rfl) sub_one_eq_ofNat⟩

/-! ### INX, INY, DEX and DEY -/

/-- A byte put into X with its Z and N changes nothing else (R15). -/
theorem setZN_setX_only (v : Byte) (s : State) :
    ∃ p', setZN v (s.setX v) = { s with x := v, p := p' } ∧ FlagsWritten s.p p' (znOf v.toNat) :=
  ⟨_, rfl, setZN_flags v (s.setX v)⟩

/-- A byte put into Y with its Z and N changes nothing else (R15). -/
theorem setZN_setY_only (v : Byte) (s : State) :
    ∃ p', setZN v (s.setY v) = { s with y := v, p := p' } ∧ FlagsWritten s.p p' (znOf v.toNat) :=
  ⟨_, rfl, setZN_flags v (s.setY v)⟩

/-- Settles O38: each of the four puts its register, stepped by one, back. -/
theorem indexRegistersStepAndWrap : Obligations.IndexRegistersStepAndWrap := by
  refine ⟨implied_of (decode_eq_iff_eq rfl) rfl fun s => ?_, implied_of (decode_eq_iff_eq rfl) rfl fun s => ?_,
    implied_of (decode_eq_iff_eq rfl) rfl fun s => ?_, implied_of (decode_eq_iff_eq rfl) rfl fun s => ?_⟩
  · rw [after, add_one_eq_ofNat]
    exact setZN_setX_only _ s
  · rw [after, add_one_eq_ofNat]
    exact setZN_setY_only _ s
  · rw [after, sub_one_eq_ofNat]
    exact setZN_setX_only _ s
  · rw [after, sub_one_eq_ofNat]
    exact setZN_setY_only _ s

end Sys2Proof.Machine
end

section
/-! PROOF. RTS and RTI (R138, R139), and a return paired with the JSR that called (R140). -/

namespace Sys2Proof.Machine

/-- One past the 16-bit value of two bytes, as a number (R138). -/
theorem pair_add_one_eq_ofNat (hi lo : Byte) :
    pair hi lo + 1 = BitVec.ofNat 16 (lo.toNat + 256 * hi.toNat + 1) := by
  apply BitVec.eq_of_toNat_eq
  rw [BitVec.toNat_add, pair_toNat, BitVec.toNat_ofNat, Nat.mul_comm, Nat.add_comm (256 * hi.toNat)]
  rfl

/-- The return in numbers: two clamped pops, low byte first, plus one (R138). -/
theorem returnFromStack_eq_ofNat (s : State) :
    returnFromStack s = { s with
      sp := BitVec.ofNat 8 (popped (popped s.sp.toNat))
      pc := BitVec.ofNat 16 ((stackByte s (popped s.sp.toNat)).toNat +
        256 * (stackByte s (popped (popped s.sp.toNat))).toNat + 1) } := by
  have sp (v : Byte) : popped v.toNat = (poppedSp v).toNat := (poppedSp_toNat v).symm
  rw [returnFromStack_eq, pair_add_one_eq_ofNat, sp, sp, stackByte_eq, stackByte_eq, BitVec.ofNat_toNat,
    BitVec.setWidth_eq]
  rfl

/-- Settles O42. -/
theorem returnsPopPcPlusOne : Obligations.ReturnsPopPcPlusOne := by
  intro op i h
  simp only [List.mem_cons, Prod.mk.injEq, List.not_mem_nil, or_false] at h
  rcases h with ⟨rfl, rfl⟩ | ⟨rfl, rfl⟩ <;>
    exact implied_of (decode_eq_iff_eq rfl) rfl returnFromStack_eq_ofNat

/-- What JSR leaves on the stack when the first push leaves room for the second: the two bytes of the address of its
last byte, high byte above (R137). -/
theorem pushReturn_stackBytes {s : State} (h : 1 ≤ s.sp.toNat) :
    stackByte (pushReturn s) (s.sp.toNat - 1) = loByte (s.pc + 1) ∧
      stackByte (pushReturn s) s.sp.toNat = hiByte (s.pc + 1) := by
  have := s.sp.isLt
  have low : (BitVec.ofNat 16 (0x0100 + (s.sp.toNat - 1))).toNat = 0x0100 + (s.sp.toNat - 1) :=
    Nat.mod_eq_of_lt (by omega)
  have high : (BitVec.ofNat 16 (0x0100 + s.sp.toNat)).toNat = 0x0100 + s.sp.toNat := Nat.mod_eq_of_lt (by omega)
  rw [loByte_eq_ofNat, hiByte_eq_ofNat, BitVec.toNat_add]
  constructor
  · rw [stackByte, pushReturn_memRead, if_pos low]
    rfl
  · rw [stackByte, pushReturn_memRead, high, if_neg (by omega), if_pos rfl]
    rfl

/-- A return from a stack as the two pushes of JSR left it undoes them and goes past the operand of the JSR (R140). -/
theorem returnFromStack_of_pushReturn {s u : State} (h : 2 ≤ s.sp.toNat) (hsp : u.sp = (pushReturn s).sp)
    (hhi : stackByte u s.sp.toNat = stackByte (pushReturn s) s.sp.toNat)
    (hlo : stackByte u (s.sp.toNat - 1) = stackByte (pushReturn s) (s.sp.toNat - 1)) :
    returnFromStack u = { u with sp := s.sp, pc := s.pc + 2 } := by
  have := s.sp.isLt
  have sp : u.sp.toNat = s.sp.toNat - 2 := by
    rw [hsp, pushReturn, push_sp, push_sp, pushedSp_toNat, pushedSp_toNat, Nat.sub_sub]
  have pop1 : popped u.sp.toNat = s.sp.toNat - 1 := by rw [sp, popped]; omega
  have pop2 : popped (s.sp.toNat - 1) = s.sp.toNat := by rw [popped]; omega
  have pc : s.pc + 1 + 1 = s.pc + 2 := BitVec.add_assoc ..
  obtain ⟨lo, hi⟩ := pushReturn_stackBytes (Nat.le_of_succ_le h)
  rw [returnFromStack_eq_ofNat, pop1, pop2, hlo, hhi, lo, hi, ← pair_add_one_eq_ofNat, pair_hiByte_loByte, pc,
    BitVec.ofNat_toNat, BitVec.setWidth_eq]

/-- Settles O43. -/
theorem returnGoesToTheInstructionAfterTheCall : Obligations.ReturnGoesToTheInstructionAfterTheCall := by
  intro s t u h ht hsp hhi hlo
  obtain ⟨-, rfl⟩ := exec_next ht
  rw [after_jsr] at hsp hhi hlo
  have back : Host.Outcome.next (returnFromStack u) = (.next { u with sp := s.sp, pc := s.pc + 2 } : Result) :=
    congrArg _ (returnFromStack_of_pushReturn h hsp hhi hlo)
  exact ⟨back, back⟩

end Sys2Proof.Machine
end

section
/-! PROOF. A run that never ends: JMP abs to its own address (R136, R184, R203). -/

namespace Sys2Proof.Machine

/-- JMP abs is one jump to the word at its operand (R43, R136). -/
theorem stepWith_jmp_abs (p : Params) {s : State} (h : s.memRead s.pc = 0x4C) :
    stepWith p s = .next (s.setPc (BitVec.ofNat 16 (wordAt s (s.pc + 1)))) := by
  have dec : decode 0x4C = .jmp .abs := (decode_eq_jmp_iff _ _).mpr (by decide)
  rw [stepWith_eq, h, dec, execWith_eq_after p _ _ rfl, ← pair_memRead_eq]
  rfl

theorem stepWith_jmp_self (p : Params) {s : State} (h : s.memRead s.pc = 0x4C)
    (target : wordAt s (s.pc + 1) = s.pc.toNat) : stepWith p s = .next s := by
  rw [stepWith_jmp_abs p h, target, BitVec.ofNat_toNat, BitVec.setWidth_eq, State.setPc_self]

/-- A running state that the step maps to itself is never left (R184). -/
theorem runLoop_of_fixed {p : Params} {s : State} (h : 1 < s.pc.toNat) (fixed : stepWith p s = .next s) (n : Nat) :
    runLoop p n s = .outOfFuel s := by
  induction n with
  | zero => rw [runLoop, if_neg (by rw [stopped_iff]; omega)]
  | succ n ih => rw [runLoop_step h fixed, ih]

/-- Settles O60. -/
theorem aJumpToItselfNeverEnds : Obligations.AJumpToItselfNeverEnds :=
  fun p _ hpc hop target => runLoop_of_fixed hpc (stepWith_jmp_self p hop target)

end Sys2Proof.Machine
end

section
/-! PROOF. The flag instructions (R148 to R155) and the register transfers (R146, R147, R156 to R160). -/

namespace Sys2Proof.Machine

/-! ### The flag instructions -/

/-- Setting a flag writes this flag and changes nothing else (R16). -/
theorem setFlag_only (f : Flag) (b : Bool) (s : State) :
    ∃ p', s.setFlag f b = { s with p := p' } ∧ FlagsWritten s.p p' (oneFlag f b) := by
  refine ⟨_, rfl, fun g => ?_⟩
  rw [getFlag_putFlag, oneFlag]
  split_ifs <;> rfl

/-- Settles O47: each of the seven is `setFlag` of its one flag. -/
theorem flagInstructionsWriteOneFlag : Obligations.FlagInstructionsWriteOneFlag := by
  intro op i f b h
  simp only [List.mem_cons, Prod.mk.injEq, List.not_mem_nil, or_false] at h
  rcases h with ⟨rfl, rfl, rfl, rfl⟩ | ⟨rfl, rfl, rfl, rfl⟩ | ⟨rfl, rfl, rfl, rfl⟩ | ⟨rfl, rfl, rfl, rfl⟩ |
      ⟨rfl, rfl, rfl, rfl⟩ | ⟨rfl, rfl, rfl, rfl⟩ | ⟨rfl, rfl, rfl, rfl⟩ <;>
    exact implied_of (decode_eq_iff_eq rfl) rfl (setFlag_only _ _)

/-! ### The register transfers -/

/-- Settles O46: TSX is a load of X from S, TXS a bare copy. -/
theorem stackPointerTransfers : Obligations.StackPointerTransfers :=
  ⟨implied_of (decode_eq_iff_eq rfl) rfl fun s => setZN_setX_only s.sp s,
    implied_of (decode_eq_iff_eq rfl) rfl fun _ => rfl⟩

/-- Settles O48: each of the four puts the register it copies, with its Z and N, into another. -/
theorem transfersCopyARegister : Obligations.TransfersCopyARegister :=
  ⟨implied_of (decode_eq_iff_eq rfl) rfl fun s => setZN_setX_only s.a s,
    implied_of (decode_eq_iff_eq rfl) rfl fun s => setZN_setY_only s.a s,
    implied_of (decode_eq_iff_eq rfl) rfl fun s => setZN_setA_only s.x s,
    implied_of (decode_eq_iff_eq rfl) rfl fun s => setZN_setA_only s.y s⟩

end Sys2Proof.Machine
end

section
/-! PROOF. BRK and NOP (R161, R162), and the runs that end at once or after one step: at BRK, and at RTS or RTI with
the sentinel on the stack (R180 to R182). -/

namespace Sys2Proof.Machine

/-- Settles O49. -/
theorem brkClearsPcAndNopDoesNothing : Obligations.BrkClearsPcAndNopDoesNothing :=
  ⟨implied_of (decode_eq_iff_eq rfl) rfl fun _ => rfl, implied_of (decode_eq_iff_eq rfl) rfl fun _ => rfl⟩

/-! ### One step of a run -/

/-- A step whose opcode byte is that of `i` is `after` of `i`, with PC past the opcode (R71). -/
theorem stepWith_eq_after (p : Params) {s : State} {i : Instr} (h : opcodeOf i = some (s.memRead s.pc)) :
    stepWith p s = .next (after p i (s.setPc (s.pc + 1))) := by
  rw [stepWith_eq, decode_eq_iff.mpr h, execWith_eq_after p i _ (runs_of_wf (wf_of_opcodeOf h))]

/-- A run in which one instruction leaves PC <= 1 ends after it (R182). -/
theorem runLoop_succ_of_stop {p : Params} {s t : State} {i : Instr} (h : 1 < s.pc.toNat)
    (hop : opcodeOf i = some (s.memRead s.pc)) (ht : after p i (s.setPc (s.pc + 1)) = t) (stop : t.pc.toNat ≤ 1)
    (n : Nat) : runLoop p (n + 1) s = .ended t := by
  rw [runLoop_step h (stepWith_eq_after p hop), ht, runLoop_stopped p stop]

/-- The two pops take the sentinel's bytes, and the return goes to 0x0001 (R138, R181). -/
theorem returnFromStack_enterRun (entry : Word) (seed : Byte) (s : State) (pc : Word) :
    returnFromStack ((enterRun entry seed s).setPc pc) = { enterRun entry seed s with sp := 0xFF, pc := 0x0001 } := by
  have popLow : poppedSp 0xFD = 0xFE := by decide
  have popHigh : poppedSp 0xFE = 0xFF := by decide
  have low : stackAddr 0xFE = 0x01FE := by decide
  have high : stackAddr 0xFF = 0x01FF := by decide
  have sentinel : pair 0x00 0x00 + 1 = 0x0001 := by decide
  rw [enterRun_eq, returnFromStack_eq]
  simp only [State.setPc_sp, State.setSp_sp, State.setPc_memRead, State.setSp_memRead, State.memRead_poke, popLow,
    popHigh, low, high, if_true, ite_self, sentinel]
  rfl

/-- Settles O58: the step at RTS or RTI pops the sentinel, the step at BRK clears PC. -/
theorem returnAndBreakEndARun : Obligations.ReturnAndBreakEndARun := by
  intro p entry seed s u hu
  have entered : entry = u.pc := by rw [hu, enterRun_eq]; rfl
  have ret (pc : Word) : returnFromStack (u.setPc pc) = { u with sp := 0xFF, pc := 0x0001 } :=
    hu ▸ returnFromStack_enterRun entry seed s pc
  rw [entered]
  refine ⟨runLoop_stopped p, fun running op => ?_, fun running brk => ?_⟩
  · rcases op with rts | rti
    · exact runLoop_succ_of_stop (i := .rts) running (congrArg some rts.symm) (ret _) (Nat.le_refl 1)
    · exact runLoop_succ_of_stop (i := .rti) running (congrArg some rti.symm) (ret _) (Nat.le_refl 1)
  · exact runLoop_succ_of_stop (i := .brk) running (congrArg some brk.symm) rfl (Nat.zero_le 1)

end Sys2Proof.Machine
end

section
/-! PROOF. The loads and the stores (R164 to R170). -/

namespace Sys2Proof.Machine

/-- Settles O51: each of the three puts its operand, with its Z and N, into its register. -/
theorem loadsReadIntoARegister : Obligations.LoadsReadIntoARegister :=
  ⟨readsOperand_of_encodings (fun _ => rfl) (by decide) (fun _ => rfl) fun _ _ => setZN_setA_only _ _,
    readsOperand_of_encodings (fun _ => rfl) (by decide) (fun _ => rfl) fun _ _ => setZN_setX_only _ _,
    readsOperand_of_encodings (fun _ => rfl) (by decide) (fun _ => rfl) fun _ _ => setZN_setY_only _ _⟩

/-- Settles O52: each of the three is `store_fresh` of its register, in modes with an effective address. -/
theorem storesWriteARegister : Obligations.StoresWriteARegister :=
  ⟨storesRegister_of (decode_eq_iff_mem_of_encodings (fun _ => rfl) (by decide)) (by decide) fun _ _ => rfl,
    storesRegister_of (decode_eq_iff_mem_of_encodings (fun _ => rfl) (by decide)) (by decide) fun _ _ => rfl,
    storesRegister_of (decode_eq_iff_mem_of_encodings (fun _ => rfl) (by decide)) (by decide) fun _ _ => rfl⟩

end Sys2Proof.Machine
end

section
/-! PROOF. The driver (R180 to R184, R193): one turn of the block, and all that a run can come to. -/

namespace Sys2Proof.Machine

theorem not_stopped {s : State} (h : 1 < s.pc.toNat) : ¬ stopped s = true := by
  rw [stopped_iff]
  exact Nat.not_le_of_gt h

/-! ### One turn of the block -/

/-- A running block with PC <= 1 ends its run and changes no state (R182). -/
theorem turn_stopped (p : Params) {s : State} (h : s.pc.toNat ≤ 1) :
    Block.turn p ⟨s, .running⟩ = .next ⟨s, .idle⟩ := if_pos ((stopped_iff s).mpr h)

/-- A running block with PC > 1 makes one step and runs on (R180). -/
theorem turn_step {p : Params} {s t : State} (h : 1 < s.pc.toNat) (e : stepWith p s = .next t) :
    Block.turn p ⟨s, .running⟩ = .next ⟨t, .running⟩ := by
  rw [Block.turn, if_neg (not_stopped h), e]

/-- Settles O56: the step of a running block completes. -/
theorem driverTestsPcBeforeEveryStep : Obligations.DriverTestsPcBeforeEveryStep := by
  refine fun p s => ⟨rfl, turn_stopped p, fun h => ?_, fun h => ?_⟩
  · obtain ⟨t, ht⟩ := stepWith_completes p s
    exact ⟨t, ht, turn_step h ht⟩
  · obtain ⟨t, ht⟩ := step_completes s
    exact ⟨t, ht, turn_step h ((stepWith_params s).trans ht)⟩

/-! ### The end of a run -/

/-- All the bounded loop can come to: one end, which has PC <= 1 and stays the end under every greater bound, or the
bound, since every step completes (R72, R182). -/
theorem runLoop_ends_or_outOfFuel (p : Params) (n : Nat) (s : State) :
    (∃ t, t.pc.toNat ≤ 1 ∧ ∀ k, runLoop p (n + k) s = .ended t) ∨ ∃ t, runLoop p n s = .outOfFuel t := by
  induction n generalizing s with
  | zero =>
    rcases Nat.lt_or_ge 1 s.pc.toNat with running | stop
    · exact .inr ⟨s, if_neg (not_stopped running)⟩
    · exact .inl ⟨s, stop, fun k => runLoop_stopped p stop _⟩
  | succ n ih =>
    rcases Nat.lt_or_ge 1 s.pc.toNat with running | stop
    · obtain ⟨u, hu⟩ := stepWith_completes p s
      simp only [Nat.add_right_comm n 1, runLoop_step running hu]
      exact ih u
    · exact .inl ⟨s, stop, fun k => runLoop_stopped p stop _⟩

/-- An end of the loop has PC <= 1 and stays the end under every greater bound (R182, R183). -/
theorem runLoop_of_ended {p : Params} {n : Nat} {s t : State} (h : runLoop p n s = .ended t) :
    t.pc.toNat ≤ 1 ∧ ∀ k, runLoop p (n + k) s = .ended t := by
  rcases runLoop_ends_or_outOfFuel p n s with ⟨u, hpc, hu⟩ | ⟨u, hu⟩
  · cases h.symm.trans (hu 0)
    exact ⟨hpc, hu⟩
  · cases h.symm.trans hu

theorem runLoop_ne_refused (p : Params) (n : Nat) (s : State) (r : Refusal) : runLoop p n s ≠ .refused r := by
  intro h
  rcases runLoop_ends_or_outOfFuel p n s with ⟨u, -, hu⟩ | ⟨u, hu⟩
  · cases h.symm.trans (hu 0)
  · cases h.symm.trans hu

/-- Two bounds under which the loop ends give the same end: both are the end under the sum of the bounds (R183). -/
theorem runLoop_ended_unique {p : Params} {m n : Nat} {s t u : State} (ht : runLoop p m s = .ended t)
    (hu : runLoop p n s = .ended u) : t = u := by
  have under_sum := (runLoop_of_ended hu).2 m
  rw [Nat.add_comm, (runLoop_of_ended ht).2 n] at under_sum
  exact RunResult.ended.inj under_sum

/-- Settles O59. -/
theorem aRunHasAtMostOneEnd : Obligations.ARunHasAtMostOneEnd := fun p entry seed s =>
  ⟨fun _ _ ⟨_, ht⟩ ⟨_, hu⟩ => runLoop_ended_unique ht hu, fun _ ⟨_, ht⟩ => (runLoop_of_ended ht).1,
    fun n => runLoop_ne_refused p n (enterRun entry seed s)⟩

end Sys2Proof.Machine
end
